-- ==== Sys2Proof/Word.lean ====
section
/-! DEFINITION. The bit-vector types of FDCL (00_scope.md R7, R8): all values are unsigned, bit 0 is the least
significant bit. -/

namespace Sys2Proof

/-- One byte: the unit of `feed` and of every stored byte (00_scope.md R6). -/
abbrev Byte := BitVec 8

/-- A state code, the contents of `st` (30_encoding.md R65). -/
abbrev StCode := BitVec 4

/-- A payload count, the contents of `len` and of `rc` (00_scope.md R7). -/
abbrev Count := BitVec 4

/-- A 16-bit wire field: the declared length L and the checksum (00_scope.md R6). -/
abbrev Half := BitVec 16

/-- A decode key (30_encoding.md R66). -/
abbrev Key := BitVec 13

end Sys2Proof
end

