-- ==== Sys2Proof/Config.lean ====
section
/-! DEFINITION. The fixed parameters of FDCL (00_scope.md R6) and the one optional parameter the spec names
(93_implementation_defined.md, SAME_STEP_ORDER). UNVERIFIED (log 7): the spec calls its numeric literals unaudited and
holds them normative (92_eei_decisions.md D20). -/

namespace Sys2Proof.Config

/-- `MAX_PAYLOAD`: the payload buffer's capacity and the largest accepted declared length. -/
@[simp] abbrev maxPayload : Nat := 8

/-- `HEAD_LOW`: the first frame byte. -/
@[simp] abbrev headLow : Byte := 0xF4#8

/-- `HEAD_HIGH`: the second frame byte. -/
@[simp] abbrev headHigh : Byte := 0xF5#8

/-- `TAIL`: the last frame byte. -/
@[simp] abbrev tail : Byte := 0xFB#8

/-- `EMPTY`: the latch value meaning "empty / already consumed". -/
@[simp] abbrev empty : Byte := 0x00#8

/-- Which of a take and a publish in one step acts first. -/
inductive SameStepOrder where
  /-- The take returns the old latch and the latch ends holding the new identifier (41_command_latch.md R113). -/
  | takeFirst
  /-- The take returns the new identifier and the latch ends at 0 (92_eei_decisions.md D15). -/
  | publishFirst
deriving DecidableEq, Repr

/-- `SAME_STEP_ORDER`, at its default: "The spec fixes this order as the hardware's" (92_eei_decisions.md D15, log 6). -/
abbrev sameStepOrder : SameStepOrder := .takeFirst

end Sys2Proof.Config
end

