-- ==== Sys2Proof/Syntax.lean ====
section
/-! DEFINITION. The operations of FDCL, one constructor per row of spec/opcode_table.json (30_encoding.md R67).
An operand is what the row leaves free: the byte b of `feed(b)`, and the low state bits ss of FEED.ILLEGAL.CF. -/

namespace Sys2Proof

inductive Instr where
  /-- `FEED.AHL.HEAD`, 40_frame_decoder.md R81: b is HEAD_LOW. -/
  | feedAhlHead
  /-- `FEED.AHL.SCAN`, R82: any other byte b. -/
  | feedAhlScan (b : Byte)
  /-- `FEED.AHH.HEAD`, R83: b is HEAD_HIGH. -/
  | feedAhhHead
  /-- `FEED.AHH.REHEAD`, R84: b is HEAD_LOW. -/
  | feedAhhRehead
  /-- `FEED.AHH.RESYNC`, R85: any other byte b. -/
  | feedAhhResync (b : Byte)
  /-- `FEED.LENLO`, R86. -/
  | feedLenlo (b : Byte)
  /-- `FEED.LENHI`, R87. -/
  | feedLenhi (b : Byte)
  /-- `FEED.TYPE`, R88. -/
  | feedType (b : Byte)
  /-- `FEED.CMD`, R89. -/
  | feedCmd (b : Byte)
  /-- `FEED.SEQ`, R90. -/
  | feedSeq (b : Byte)
  /-- `FEED.DATA`, R91. -/
  | feedData (b : Byte)
  /-- `FEED.CKLO`, R92. -/
  | feedCklo (b : Byte)
  /-- `FEED.CKHI`, R93. -/
  | feedCkhi (b : Byte)
  /-- `FEED.TAIL.OK`, R94: b is TAIL. -/
  | feedTailOk
  /-- `FEED.TAIL.BAD`, R95: any other byte b. -/
  | feedTailBad (b : Byte)
  /-- `FEED.ILLEGAL.B`, R96: state code 0xB. -/
  | feedIllegalB (b : Byte)
  /-- `FEED.ILLEGAL.CF`, R96: state codes 0xC..0xF, ss the two low bits of the code. -/
  | feedIllegalCf (ss : BitVec 2) (b : Byte)
  /-- `TAKE`, 41_command_latch.md R111. -/
  | take
deriving DecidableEq, Repr

end Sys2Proof
end

