-- ==== Sys2Proof/Decode.lean ====
section
/-! DEFINITION. State codes (30_encoding.md R65), the decode key (R66), the decoder and the encoder of the opcode map
(R67), and the map itself as match, mask and except rows. The codes and the key are the spec's own
(92_eei_decisions.md D4, D6); they stand at no port. -/

namespace Sys2Proof

/-! ### State codes (30_encoding.md R65). Codes 0xB..0xF are illegal (R69). -/

@[simp] abbrev St.awaitHeadLow : StCode := 0x0#4
@[simp] abbrev St.awaitHeadHigh : StCode := 0x1#4
@[simp] abbrev St.lengthLow : StCode := 0x2#4
@[simp] abbrev St.lengthHigh : StCode := 0x3#4
@[simp] abbrev St.type : StCode := 0x4#4
@[simp] abbrev St.command : StCode := 0x5#4
@[simp] abbrev St.sequence : StCode := 0x6#4
@[simp] abbrev St.data : StCode := 0x7#4
@[simp] abbrev St.checksumLow : StCode := 0x8#4
@[simp] abbrev St.checksumHigh : StCode := 0x9#4
@[simp] abbrev St.tail : StCode := 0xA#4
/-- The one illegal code of row FEED.ILLEGAL.B. -/
@[simp] abbrev St.illegalB : StCode := 0xB#4

/-- `st` holds one of the 11 states (10_state.md R22, INV7 of R34). -/
abbrev St.Legal (c : StCode) : Prop := c ≤ St.tail

/-! ### The decode key (30_encoding.md R66): op in bit 12, s in bits 11..8, b in bits 7..0. -/

/-- The key of `feed(b)` while `st` holds the code c: `0 ++ st ++ b`. -/
def feedKey (c : StCode) (b : Byte) : Key := (0#1 ++ c) ++ b

/-- The key of `take`. -/
def takeKey : Key := 0x1000#13

/-- `K[12]`, true for TAKE. -/
def Key.isTake (k : Key) : Bool := k.getLsbD 12

/-- `K[11:8]`. -/
def Key.code (k : Key) : StCode := k.extractLsb' 8 4

/-- `K[7:0]`. -/
def Key.byte (k : Key) : Byte := k.extractLsb' 0 8

/-- The FEED row that the code c and the byte b select (30_encoding.md R67): the exact-byte rows of a state first, its
"except" row last (R68). -/
def decodeFeed (c : StCode) (b : Byte) : Instr :=
  if c = St.awaitHeadLow then
    if b = Config.headLow then .feedAhlHead else .feedAhlScan b
  else if c = St.awaitHeadHigh then
    if b = Config.headHigh then .feedAhhHead
    else if b = Config.headLow then .feedAhhRehead
    else .feedAhhResync b
  else if c = St.lengthLow then .feedLenlo b
  else if c = St.lengthHigh then .feedLenhi b
  else if c = St.type then .feedType b
  else if c = St.command then .feedCmd b
  else if c = St.sequence then .feedSeq b
  else if c = St.data then .feedData b
  else if c = St.checksumLow then .feedCklo b
  else if c = St.checksumHigh then .feedCkhi b
  else if c = St.tail then
    if b = Config.tail then .feedTailOk else .feedTailBad b
  else if c = St.illegalB then .feedIllegalB b
  else .feedIllegalCf (c.extractLsb' 0 2) b

/-- The operation a key selects. Total on all 8192 keys (30_encoding.md R68). -/
def decode (k : Key) : Instr :=
  if Key.isTake k then .take else decodeFeed (Key.code k) (Key.byte k)

/-- Why a word is no decode key. -/
inductive DecodeError where
  /-- A bit above bit 12 is set: no key has it (log 11). Raised by `decodeWord`; safe. -/
  | widerThanKey
deriving DecidableEq, Repr

/-- The operation of a word given as a number: a key is 13 bits, and a word with a bit set above them is rejected by
name (log 11). -/
def decodeWord (w : Nat) : Except DecodeError Instr :=
  if w < 2 ^ 13 then .ok (decode (BitVec.ofNat 13 w)) else .error .widerThanKey

/-- The operation the decoder reads from the lowest nbits bits of w, numbered as spec/opcode_table.json numbers a key
(bit 0 is `K[0]`). A key is one number, in no byte order; a refused word gives none. -/
def decodeTableWord (nbits w : Nat) : Option Instr :=
  match decodeWord (w % 2 ^ nbits) with
  | .ok i => some i
  | .error _ => none

/-! ### The encoder, from the "key match" column of 30_encoding.md R67. -/

/-- The key of an operation. TAKE's low 12 bits are don't-care bits; R66 gives its key as 0x1000. -/
def encode : Instr → Key
  | .feedAhlHead => 0x00F4#13
  | .feedAhlScan b => feedKey 0x0#4 b
  | .feedAhhHead => 0x01F5#13
  | .feedAhhRehead => 0x01F4#13
  | .feedAhhResync b => feedKey 0x1#4 b
  | .feedLenlo b => feedKey 0x2#4 b
  | .feedLenhi b => feedKey 0x3#4 b
  | .feedType b => feedKey 0x4#4 b
  | .feedCmd b => feedKey 0x5#4 b
  | .feedSeq b => feedKey 0x6#4 b
  | .feedData b => feedKey 0x7#4 b
  | .feedCklo b => feedKey 0x8#4 b
  | .feedCkhi b => feedKey 0x9#4 b
  | .feedTailOk => 0x0AFB#13
  | .feedTailBad b => feedKey 0xA#4 b
  | .feedIllegalB b => feedKey 0xB#4 b
  | .feedIllegalCf ss b => feedKey (0b11#2 ++ ss) b
  | .take => 0x1000#13

/-! ### The opcode map as rows (30_encoding.md R67, spec/opcode_table.json). -/

/-- A row: its mnemonic, "key match", "key mask" and "except" columns. -/
structure Row where
  mnemonic : String
  value : Key
  mask : Key
  except : List Key
deriving DecidableEq, Repr

/-- The row matches the key (30_encoding.md R67: "A row with "except" matches only when no other row of the same state
matches"). -/
def Row.hits (r : Row) (k : Key) : Bool := k &&& r.mask == r.value && !r.except.contains k

/-- The row of each operation. -/
def Instr.row : Instr → Row
  | .feedAhlHead => ⟨"FEED.AHL.HEAD", 0x00F4#13, 0x1FFF#13, []⟩
  | .feedAhlScan _ => ⟨"FEED.AHL.SCAN", 0x0000#13, 0x1F00#13, [0x00F4#13]⟩
  | .feedAhhHead => ⟨"FEED.AHH.HEAD", 0x01F5#13, 0x1FFF#13, []⟩
  | .feedAhhRehead => ⟨"FEED.AHH.REHEAD", 0x01F4#13, 0x1FFF#13, []⟩
  | .feedAhhResync _ => ⟨"FEED.AHH.RESYNC", 0x0100#13, 0x1F00#13, [0x01F4#13, 0x01F5#13]⟩
  | .feedLenlo _ => ⟨"FEED.LENLO", 0x0200#13, 0x1F00#13, []⟩
  | .feedLenhi _ => ⟨"FEED.LENHI", 0x0300#13, 0x1F00#13, []⟩
  | .feedType _ => ⟨"FEED.TYPE", 0x0400#13, 0x1F00#13, []⟩
  | .feedCmd _ => ⟨"FEED.CMD", 0x0500#13, 0x1F00#13, []⟩
  | .feedSeq _ => ⟨"FEED.SEQ", 0x0600#13, 0x1F00#13, []⟩
  | .feedData _ => ⟨"FEED.DATA", 0x0700#13, 0x1F00#13, []⟩
  | .feedCklo _ => ⟨"FEED.CKLO", 0x0800#13, 0x1F00#13, []⟩
  | .feedCkhi _ => ⟨"FEED.CKHI", 0x0900#13, 0x1F00#13, []⟩
  | .feedTailOk => ⟨"FEED.TAIL.OK", 0x0AFB#13, 0x1FFF#13, []⟩
  | .feedTailBad _ => ⟨"FEED.TAIL.BAD", 0x0A00#13, 0x1F00#13, [0x0AFB#13]⟩
  | .feedIllegalB _ => ⟨"FEED.ILLEGAL.B", 0x0B00#13, 0x1F00#13, []⟩
  | .feedIllegalCf _ _ => ⟨"FEED.ILLEGAL.CF", 0x0C00#13, 0x1C00#13, []⟩
  | .take => ⟨"TAKE", 0x1000#13, 0x1000#13, []⟩

/-- The 18 rows, in the table's order. -/
def opcodeTable : List Row :=
  [Instr.row .feedAhlHead, Instr.row (.feedAhlScan 0), Instr.row .feedAhhHead, Instr.row .feedAhhRehead,
   Instr.row (.feedAhhResync 0), Instr.row (.feedLenlo 0), Instr.row (.feedLenhi 0), Instr.row (.feedType 0),
   Instr.row (.feedCmd 0)] ++
  [Instr.row (.feedSeq 0), Instr.row (.feedData 0), Instr.row (.feedCklo 0), Instr.row (.feedCkhi 0),
   Instr.row .feedTailOk, Instr.row (.feedTailBad 0), Instr.row (.feedIllegalB 0), Instr.row (.feedIllegalCf 0 0),
   Instr.row .take]

end Sys2Proof
end

