-- ==== Sys2Proof/Machine/State.lean ====
section
/-! DEFINITION. The state of FDCL as plain data: the registers of 10_state.md R21, the output ports of R36 as the most
recent step drove them (log 2), the model-only abort label of 60_exceptions.md R122 (log 3), and the inputs the external
agents have delivered (log 1). -/

namespace Sys2Proof.Machine

/-- The payload buffer P (20_memory.md R40) as (index, byte) cells in one canonical form (`Memory.wf`): indexes rising,
none listed whose byte is what an unlisted index reads as (log 4). -/
abbrev Memory := List Host.Cell

/-- The complete architectural state (10_state.md R21: "A register not listed here does not exist"). -/
structure Regs where
  /-- `st`, the DecoderState: a code of 30_encoding.md R65, illegal codes included (log 8). -/
  st : StCode
  /-- `len_lo`, the LEN_LOW byte of the frame being decoded (10_state.md R24). -/
  lenLo : Byte
  /-- `len`, the declared length (10_state.md R23). -/
  len : Count
  /-- `rc`, the received count (10_state.md R25). -/
  rc : Count
  /-- `cksum`, the captured checksum (10_state.md R26). -/
  cksum : Half
  /-- `payload[0..7]` (10_state.md R27). -/
  payload : Memory
  /-- `latch`, the Command Latch; 0x00 is empty (10_state.md R28). -/
  latch : Byte
deriving DecidableEq, Repr

/-- The outputs of a step (10_state.md R36). -/
structure Outputs where
  /-- `frame_done`: the feed of this step completed a frame. -/
  frameDone : Bool
  /-- `frame_id`: that frame's designated identifier, 0x00 without one. -/
  frameId : Byte
  /-- `take_data`: what the take of this step returned, 0x00 without a take. -/
  takeData : Byte
deriving DecidableEq, Repr

/-- The abort labels of 60_exceptions.md R122. They belong to the model's trace and are not observable on the hardware:
no claim reads them. -/
inductive AbortLabel where
  | none
  | badHead
  | overlong
  | badTail
  | illegalState
deriving DecidableEq, Repr

/-- The inputs of one step (10_state.md R35, R37): at most one `feed` and at most one `take`, or a `reset`. -/
structure Input where
  reset : Bool
  feed : Option Byte
  take : Bool
deriving DecidableEq, Repr

/-- The state of the machine. -/
structure State where
  /-- The registers of 10_state.md R21. -/
  regs : Regs
  /-- The output ports, as the most recent step drove them (log 2). -/
  out : Outputs
  /-- The abort label the most recent step recorded (log 3). -/
  label : AbortLabel
  /-- The inputs delivered and not yet stepped, the next step's first (log 1). -/
  inputs : List Input
deriving DecidableEq, Repr

/-- The reasons a step can stop the machine. -/
inductive Fault where
  /-- Raised by `FEED.DATA` when it would write the payload buffer at index MAX_PAYLOAD or more, which is no entry of it
  (20_memory.md R41). It needs `len` above 8: no run from reset reaches it (10_state.md R34 INV1). Safe (log 9). -/
  | payloadIndex
deriving DecidableEq, Repr

/-- The reasons an operation can have no meaning. -/
inductive Refusal where
  /-- Raised by an arm of `exec` whose operation has no meaning yet; no arm does. Safe. -/
  | notModelled (mnemonic : String)
deriving DecidableEq, Repr

/-- Right after reset (70_reset_and_hazards.md R140, R141): registers at the reset values of 10_state.md R21, outputs 0.
The spec gives the payload no reset value; nothing is listed, so every entry reads as the byte log 4 names. The label is
NONE (log 3) and no input is pending (log 1). -/
def State.reset : State where
  regs :=
    { st := St.awaitHeadLow, lenLo := 0x00#8, len := 0#4, rc := 0#4, cksum := 0x0000#16, payload := [],
      latch := 0x00#8 }
  out := { frameDone := false, frameId := 0x00#8, takeData := 0x00#8 }
  label := .none
  inputs := []

end Sys2Proof.Machine
end

