-- ==== Sys2Proof/Machine/Ops.lean ====
section
/-! DEFINITION. The named operations over the payload buffer and the registers, and the abort, FDCL's counterpart of
taking an exception (60_exceptions.md R123): it saves nothing, so no return operation exists (R124). -/

namespace Sys2Proof.Machine

/-! ### The payload buffer (20_memory.md R40, R41) -/

/-- What an entry that is not listed reads as. DESIGN CHOICE (log 4): the spec gives the buffer no reset value and lets
a model fix any (70_reset_and_hazards.md R140, R142). -/
def Memory.unlisted (_ : Nat) : Byte := 0x00#8

/-- The canonical form: indexes strictly rising and inside the buffer, no cell equal to what it would read as unlisted. -/
abbrev Memory.wf (m : Memory) : Prop :=
  m.Pairwise (fun c d => c.1 < d.1) ∧ ∀ c ∈ m, c.1 < Config.maxPayload ∧ c.2 ≠ Memory.unlisted c.1

/-- The byte at an index. -/
def Memory.cell (m : Memory) (a : Nat) : Byte :=
  match m with
  | [] => Memory.unlisted a
  | c :: rest => if c.1 = a then c.2 else Memory.cell rest a

/-- List a cell at its place, over one already listed at the same index. -/
def Memory.insertCell (m : Memory) (a : Nat) (v : Byte) : Memory :=
  match m with
  | [] => [(a, v)]
  | c :: rest =>
    if a < c.1 then (a, v) :: c :: rest
    else if a = c.1 then (a, v) :: rest
    else c :: Memory.insertCell rest a v

/-- Write the byte at an index, keeping the canonical form. -/
def Memory.setCell (m : Memory) (a : Nat) (v : Byte) : Memory :=
  if v = Memory.unlisted a then m.filter (fun c => c.1 != a) else Memory.insertCell m a v

/-- `MemRead(i, 1)`: payload[i], none where i is no index of the buffer (20_memory.md R41). -/
def memRead (i : Nat) (m : Memory) : Option Byte :=
  if i < Config.maxPayload then some (Memory.cell m i) else none

/-- `MemWrite(i, 1, v)`: payload[i] <- v, none where i is no index of the buffer (20_memory.md R41). -/
def memWrite (i : Nat) (v : Byte) (m : Memory) : Option Memory :=
  if i < Config.maxPayload then some (Memory.setCell m i v) else none

/-! ### Register writes: `name <- v` of 00_scope.md R9 -/

/-- `st <- c`. -/
def setSt (c : StCode) (s : State) : State := { s with regs := { s.regs with st := c } }

/-- `len_lo <- b`. -/
def setLenLo (b : Byte) (s : State) : State := { s with regs := { s.regs with lenLo := b } }

/-- `len <- n`. -/
def setLen (n : Count) (s : State) : State := { s with regs := { s.regs with len := n } }

/-- `rc <- n`. -/
def setRc (n : Count) (s : State) : State := { s with regs := { s.regs with rc := n } }

/-- `cksum <- h`. -/
def setCksum (h : Half) (s : State) : State := { s with regs := { s.regs with cksum := h } }

/-- The payload buffer after a write. -/
def setPayload (m : Memory) (s : State) : State := { s with regs := { s.regs with payload := m } }

/-- `latch <- b`. -/
def setLatch (b : Byte) (s : State) : State := { s with regs := { s.regs with latch := b } }

/-- The abort label of the step (60_exceptions.md R122), model-only. -/
def setLabel (l : AbortLabel) (s : State) : State := { s with label := l }

/-! ### Shared operations -/

/-- An abort (60_exceptions.md R123): `st <- AwaitHeadLow` and nothing else; `abort(label)` of 00_scope.md R9 records
the model-only label. -/
def abort (l : AbortLabel) (s : State) : State := setLabel l (setSt St.awaitHeadLow s)

/-- `publish(id)` (41_command_latch.md R110): an unconditional overwrite of the latch. -/
def publish (id : Byte) (s : State) : State := setLatch id s

/-- The registers `reset` leaves (70_reset_and_hazards.md R140): every register at its reset value, the payload not
written. -/
def resetRegs (r : Regs) : Regs :=
  { st := St.awaitHeadLow, lenLo := 0x00#8, len := 0#4, rc := 0#4, cksum := 0x0000#16, payload := r.payload,
    latch := 0x00#8 }

/-- Go on with the next state of an outcome; a fault or a refusal stays. -/
def andThen {α β : Type} (o : Host.Outcome α Fault Refusal) (f : α → Host.Outcome β Fault Refusal) :
    Host.Outcome β Fault Refusal :=
  match o with
  | .next a => f a
  | .fault r => .fault r
  | .refused r => .refused r

end Sys2Proof.Machine
end

