-- ==== Sys2Proof/Machine/Flags.lean ====
section
/-! DEFINITION. The per-step status. FDCL has no flags register (10_state.md R31): its only status is the outputs of
R36, and "pending" is a view of the latch. -/

namespace Sys2Proof.Machine

/-- "Pending": the latch holds a non-zero value (10_state.md R31). -/
def pending (r : Regs) : Bool := r.latch != Config.empty

/-- The outputs of a step with no event (10_state.md R38), and of a reset step (70_reset_and_hazards.md R141). -/
def Outputs.quiet : Outputs := { frameDone := false, frameId := 0x00#8, takeData := 0x00#8 }

/-- The outputs as a step finds them before its events act: all 0, label NONE (10_state.md R36, 60_exceptions.md R122). -/
def clearOutputs (s : State) : State := { s with out := Outputs.quiet, label := .none }

/-- A feed that emits no frame (40_frame_decoder.md R80): `frame_done = 0`, `frame_id = 0x00`; it records label NONE
unless it aborts. `take_data` is the take's alone. -/
def noFrame (s : State) : State :=
  { s with out := { s.out with frameDone := false, frameId := 0x00#8 }, label := .none }

/-- `emit frame(id)` (00_scope.md R9): `frame_done = 1`, `frame_id = id`. -/
def emitFrame (id : Byte) (s : State) : State :=
  { s with out := { s.out with frameDone := true, frameId := id }, label := .none }

/-- `take_data <- v` (41_command_latch.md R111). -/
def driveTakeData (v : Byte) (s : State) : State := { s with out := { s.out with takeData := v } }

end Sys2Proof.Machine
end

