-- ==== Sys2Proof/Machine/HeadSearch.lean ====
section
/-! DEFINITION. Head search (40_frame_decoder.md R81 to R85). -/

namespace Sys2Proof.Machine

/-- R81: `st <- AwaitHeadHigh`. -/
def execFeedAhlHead (s : State) : Host.Outcome State Fault Refusal :=
  .next (setSt St.awaitHeadHigh (noFrame s))

/-- R82: `st <- AwaitHeadLow`; idle scanning, no abort. -/
def execFeedAhlScan (_b : Byte) (s : State) : Host.Outcome State Fault Refusal :=
  .next (setSt St.awaitHeadLow (noFrame s))

/-- R83: `rc <- 0; st <- LengthLow`, the start of a frame attempt. -/
def execFeedAhhHead (s : State) : Host.Outcome State Fault Refusal :=
  .next (setSt St.lengthLow (setRc 0#4 (noFrame s)))

/-- R84: `st <- AwaitHeadHigh`, "stay, treat as new head-low". -/
def execFeedAhhRehead (s : State) : Host.Outcome State Fault Refusal :=
  .next (setSt St.awaitHeadHigh (noFrame s))

/-- R85: `st <- AwaitHeadLow; abort(BAD_HEAD)`. -/
def execFeedAhhResync (_b : Byte) (s : State) : Host.Outcome State Fault Refusal :=
  .next (abort .badHead (noFrame s))

end Sys2Proof.Machine
end

