-- ==== Sys2Proof/Machine/Header.lean ====
section
/-! DEFINITION. The discarded header bytes (40_frame_decoder.md R88 to R90). -/

namespace Sys2Proof.Machine

/-- R88: `st <- Command`; b is discarded. -/
def execFeedType (_b : Byte) (s : State) : Host.Outcome State Fault Refusal :=
  .next (setSt St.command (noFrame s))

/-- R89: `st <- Sequence`; b is discarded. -/
def execFeedCmd (_b : Byte) (s : State) : Host.Outcome State Fault Refusal :=
  .next (setSt St.sequence (noFrame s))

/-- R90: `if len > 0 then st <- Data else st <- ChecksumLow`; b is discarded. -/
def execFeedSeq (_b : Byte) (s : State) : Host.Outcome State Fault Refusal :=
  .next (setSt (if s.regs.len > 0#4 then St.data else St.checksumLow) (noFrame s))

end Sys2Proof.Machine
end

