-- ==== Sys2Proof/Machine/Illegal.lean ====
section
/-! DEFINITION. A feed while `st` holds an illegal code (40_frame_decoder.md R96). -/

namespace Sys2Proof.Machine

/-- R96, code 0xB: `st <- AwaitHeadLow; abort(ILLEGAL_STATE)`. -/
def execFeedIllegalB (_b : Byte) (s : State) : Host.Outcome State Fault Refusal :=
  .next (abort .illegalState (noFrame s))

/-- R96, codes 0xC..0xF: `st <- AwaitHeadLow; abort(ILLEGAL_STATE)`. -/
def execFeedIllegalCf (_ss : BitVec 2) (_b : Byte) (s : State) : Host.Outcome State Fault Refusal :=
  .next (abort .illegalState (noFrame s))

end Sys2Proof.Machine
end

