-- ==== Sys2Proof/Machine/Latch.lean ====
section
/-! DEFINITION. The consumer's side of the Command Latch (41_command_latch.md R111). -/

namespace Sys2Proof.Machine

/-- R111: `v = latch; latch <- 0x00; take_data <- v`, one indivisible step. -/
def execTake (s : State) : Host.Outcome State Fault Refusal :=
  .next (setLatch Config.empty (driveTakeData s.regs.latch s))

end Sys2Proof.Machine
end

