-- ==== Sys2Proof/Machine/Operands.lean ====
section
/-! DEFINITION. The values the rules of 40_frame_decoder.md compute from a byte and the registers: the little-endian
16-bit fields (20_memory.md R43) and the designated identifier. FDCL has no other operand forms (10_state.md R29). -/

namespace Sys2Proof.Machine

/-- The declared length `L = LEN_HIGH ++ LEN_LOW` (20_memory.md R43, 30_encoding.md R61). -/
def declaredLength (lenHigh lenLow : Byte) : Half := lenHigh ++ lenLow

/-- `L <= MAX_PAYLOAD`, unsigned (40_frame_decoder.md R87). -/
def lengthAccepted (l : Half) : Bool := l.toNat ≤ Config.maxPayload

/-- `L[3:0]` (40_frame_decoder.md R87). -/
def lengthCount (l : Half) : Count := l.extractLsb' 0 4

/-- `cksum` after `cksum[7:0] <- b` (40_frame_decoder.md R92). -/
def withCksumLow (h : Half) (b : Byte) : Half := h.extractLsb' 8 8 ++ b

/-- `cksum` after `cksum[15:8] <- b` (40_frame_decoder.md R93). -/
def withCksumHigh (h : Half) (b : Byte) : Half := b ++ h.extractLsb' 0 8

/-- The designated identifier (40_frame_decoder.md R94): 0x00 when `len == 0`, else `MemRead(0, 1)`. -/
def designatedId (r : Regs) : Option Byte :=
  if r.len = 0#4 then some 0x00#8 else memRead 0 r.payload

end Sys2Proof.Machine
end

