-- ==== Sys2Proof/Machine/Length.lean ====
section
/-! DEFINITION. The length field (40_frame_decoder.md R86, R87). -/

namespace Sys2Proof.Machine

/-- R86: `len_lo <- b; st <- LengthHigh`. -/
def execFeedLenlo (b : Byte) (s : State) : Host.Outcome State Fault Refusal :=
  .next (setSt St.lengthHigh (setLenLo b (noFrame s)))

/-- R87: with `L = b ++ len_lo`, `L <= MAX_PAYLOAD` gives `len <- L[3:0]; st <- Type`, else `st <- AwaitHeadLow;
abort(OVERLONG)` with `len` unchanged. -/
def execFeedLenhi (b : Byte) (s : State) : Host.Outcome State Fault Refusal :=
  let l := declaredLength b s.regs.lenLo
  if lengthAccepted l then .next (setSt St.type (setLen (lengthCount l) (noFrame s)))
  else .next (abort .overlong (noFrame s))

end Sys2Proof.Machine
end

