-- ==== Sys2Proof/Machine/Payload.lean ====
section
/-! DEFINITION. The DATA bytes (40_frame_decoder.md R91). -/

namespace Sys2Proof.Machine

/-- R91: `if rc < len` then `MemWrite(rc, 1, b); rc <- rc + 1` and `st <- ChecksumLow` when `rc + 1 == len` (pre-step
rc), else `st <- Data`; with `rc >= len`, `st <- ChecksumLow` and no write (92_eei_decisions.md D19, log 13). A write at
an index that is no entry of the buffer is a fault (20_memory.md R41, log 9). -/
def execFeedData (b : Byte) (s : State) : Host.Outcome State Fault Refusal :=
  if s.regs.rc < s.regs.len then
    match memWrite s.regs.rc.toNat b s.regs.payload with
    | some m =>
      let n := s.regs.rc + 1#4
      .next (setSt (if n = s.regs.len then St.checksumLow else St.data) (setRc n (setPayload m (noFrame s))))
    | none => .fault .payloadIndex
  else .next (setSt St.checksumLow (noFrame s))

end Sys2Proof.Machine
end

