-- ==== Sys2Proof/Machine/Tail.lean ====
section
/-! DEFINITION. Checksum and tail (40_frame_decoder.md R92 to R95). -/

namespace Sys2Proof.Machine

/-- R92: `cksum[7:0] <- b; st <- ChecksumHigh`. -/
def execFeedCklo (b : Byte) (s : State) : Host.Outcome State Fault Refusal :=
  .next (setSt St.checksumHigh (setCksum (withCksumLow s.regs.cksum b) (noFrame s)))

/-- R93: `cksum[15:8] <- b; st <- Tail`. The checksum is not verified. -/
def execFeedCkhi (b : Byte) (s : State) : Host.Outcome State Fault Refusal :=
  .next (setSt St.tail (setCksum (withCksumHigh s.regs.cksum b) (noFrame s)))

/-- R94: `publish(id); emit frame(id); st <- AwaitHeadLow` with id the designated identifier. The read is at index 0,
an entry of the buffer, so the fault cannot happen. -/
def execFeedTailOk (s : State) : Host.Outcome State Fault Refusal :=
  match designatedId s.regs with
  | some id => .next (setSt St.awaitHeadLow (emitFrame id (publish id s)))
  | none => .fault .payloadIndex

/-- R95: `st <- AwaitHeadLow; abort(BAD_TAIL)`; no publish. -/
def execFeedTailBad (_b : Byte) (s : State) : Host.Outcome State Fault Refusal :=
  .next (abort .badTail (noFrame s))

end Sys2Proof.Machine
end

