-- ==== Sys2Proof/Machine/Dispatch.lean ====
section
/-! DEFINITION. One arm per row of spec/opcode_table.json. -/

namespace Sys2Proof.Machine

def exec (i : Instr) (s : State) : Host.Outcome State Fault Refusal :=
  match i with
  | .feedAhlHead => Sys2Proof.Machine.execFeedAhlHead s
  | .feedAhlScan b => Sys2Proof.Machine.execFeedAhlScan b s
  | .feedAhhHead => Sys2Proof.Machine.execFeedAhhHead s
  | .feedAhhRehead => Sys2Proof.Machine.execFeedAhhRehead s
  | .feedAhhResync b => Sys2Proof.Machine.execFeedAhhResync b s
  | .feedLenlo b => Sys2Proof.Machine.execFeedLenlo b s
  | .feedLenhi b => Sys2Proof.Machine.execFeedLenhi b s
  | .feedType b => Sys2Proof.Machine.execFeedType b s
  | .feedCmd b => Sys2Proof.Machine.execFeedCmd b s
  | .feedSeq b => Sys2Proof.Machine.execFeedSeq b s
  | .feedData b => Sys2Proof.Machine.execFeedData b s
  | .feedCklo b => Sys2Proof.Machine.execFeedCklo b s
  | .feedCkhi b => Sys2Proof.Machine.execFeedCkhi b s
  | .feedTailOk => Sys2Proof.Machine.execFeedTailOk s
  | .feedTailBad b => Sys2Proof.Machine.execFeedTailBad b s
  | .feedIllegalB b => Sys2Proof.Machine.execFeedIllegalB b s
  | .feedIllegalCf ss b => Sys2Proof.Machine.execFeedIllegalCf ss b s
  | .take => Sys2Proof.Machine.execTake s

end Sys2Proof.Machine
end

