-- ==== Sys2Proof/Machine/Event.lean ====
section
/-! DEFINITION. One step on given inputs (10_state.md R37), the inputs' textual forms (30_encoding.md R71), the external
agents' moves (10_state.md R20) and the ports of the clocked mapping (10_state.md R35). -/

namespace Sys2Proof.Machine

/-! ### Inputs of one step (30_encoding.md R71) -/

/-- `idle`: no event. -/
def Input.idle : Input := { reset := false, feed := none, take := false }

/-- `feed HH`. -/
def Input.ofByte (b : Byte) : Input := { reset := false, feed := some b, take := false }

/-- `take`. -/
def Input.ofTake : Input := { reset := false, feed := none, take := true }

/-- `feed HH & take`. -/
def Input.ofByteAndTake (b : Byte) : Input := { reset := false, feed := some b, take := true }

/-- `reset`. -/
def Input.ofReset : Input := { reset := true, feed := none, take := false }

/-- The step input that the ports carry in the clocked mapping (10_state.md R35): `rx_data` counts only while
`rx_valid = 1` (log 17). -/
def inputOfPorts (rst rxValid : Bool) (rxData : Byte) (takeReq : Bool) : Input :=
  { reset := rst, feed := if rxValid then some rxData else none, take := takeReq }

/-! ### The step on one input -/

/-- A step with `reset` asserted (70_reset_and_hazards.md R141): R140 is applied, any feed byte and take are lost, the
outputs are 0. -/
def resetStep (s : State) : State := { clearOutputs s with regs := resetRegs s.regs }

/-- The take of a step, if it has one: the operation its key selects (30_encoding.md R66). -/
def serveTake (take : Bool) (s : State) : Host.Outcome State Fault Refusal :=
  if take then exec (decode takeKey) s else .next s

/-- The feed of a step, if it has one: the operation that `decode_key(st, b)` selects (10_state.md R37). -/
def serveFeed (feed : Option Byte) (s : State) : Host.Outcome State Fault Refusal :=
  match feed with
  | some b => exec (decode (feedKey s.regs.st b)) s
  | none => .next s

/-- The take and the feed of a step in the order of SAME_STEP_ORDER (41_command_latch.md R113, log 6). A take writes
nothing a feed rule reads and a feed writes nothing a take reads but the latch, so running them in turn is the
simultaneous step of 00_scope.md R9. -/
def serveEvents (order : Config.SameStepOrder) (i : Input) (s : State) : Host.Outcome State Fault Refusal :=
  match order with
  | .takeFirst => andThen (serveTake i.take s) (serveFeed i.feed)
  | .publishFirst => andThen (serveFeed i.feed s) (serveTake i.take)

/-- One step on the input i (10_state.md R37); reset wins over every other event (60_exceptions.md R126). -/
def stepOn (i : Input) (s : State) : Host.Outcome State Fault Refusal :=
  if i.reset then .next (resetStep s) else serveEvents Config.sameStepOrder i (clearOutputs s)

/-- The input of the next step: the first delivered one, the idle input where none is (10_state.md R38, log 1). -/
def nextInput (s : State) : Input := s.inputs.headD Input.idle

/-- The state with the next step's input consumed: no byte is consumed twice (40_frame_decoder.md R80). -/
def consumeInput (s : State) : State := { s with inputs := s.inputs.tail }

/-! ### The external agents (10_state.md R20, 60_exceptions.md R127): each only adds an input -/

/-- An input joins those already delivered, in arrival order (20_memory.md R49). -/
def deliver (i : Input) (s : State) : State := { s with inputs := s.inputs ++ [i] }

/-- The byte source's only action. -/
def byteSourceSends (b : Byte) (s : State) : State := deliver (Input.ofByte b) s

/-- The consumer's only action. -/
def consumerAsks (s : State) : State := deliver Input.ofTake s

/-- Both agents act in one step. -/
def bothArrive (b : Byte) (s : State) : State := deliver (Input.ofByteAndTake b) s

/-- The reset input is asserted for one step. -/
def resetAsserted (s : State) : State := deliver Input.ofReset s

/-! ### Placing one operation as the next step's (log 12) -/

/-- The state whose next step runs the operation of the key k: for a TAKE key the next input is a take; for a FEED key
`st` holds `K[11:8]` and the next input feeds `K[7:0]`. -/
def placeKey (k : Key) (s : State) : State :=
  if Key.isTake k then { s with inputs := Input.ofTake :: s.inputs }
  else { setSt (Key.code k) s with inputs := Input.ofByte (Key.byte k) :: s.inputs }

/-- The key in the lowest nbits bits of the word w. -/
def keyOfWord (nbits w : Nat) : Key := BitVec.ofNat 13 (w % 2 ^ nbits)

/-! ### Wire frames (30_encoding.md R60, R72) -/

/-- The bytes of `frame(t, c, q, data, k)`, in arrival order (30_encoding.md R72). -/
def frameBytes (t c q : Byte) (data : List Byte) (k : Half) : List Byte :=
  [Config.headLow, Config.headHigh, BitVec.ofNat 8 data.length, 0x00#8, t, c, q] ++ data ++
    [k.extractLsb' 0 8, k.extractLsb' 8 8, Config.tail]

/-- One feed event per byte (20_memory.md R49). -/
def feeds (bytes : List Byte) : List Input := bytes.map Input.ofByte

end Sys2Proof.Machine
end

