-- ==== Sys2Proof/Machine/Step.lean ====
section
/-! DEFINITION. One step of the machine, and the state whose next step runs a given key. -/

namespace Sys2Proof.Machine

/-- One step (10_state.md R37): the next input is consumed and acts. With none delivered the step is idle (R38). -/
def step (s : State) : Host.Outcome State Fault Refusal := stepOn (nextInput s) (consumeInput s)

/-- s with the operation whose key is the lowest nbits bits of w placed as the next step's (log 12). -/
def State.withFetchWord (s : State) (nbits w : Nat) : State := placeKey (keyOfWord nbits w) s

end Sys2Proof.Machine
end

