-- ==== Sys2Proof/Safety.lean ====
section
/-! DEFINITION. The terms statements about FDCL use: what an operation answers, runs and their outputs, the invariants of
10_state.md R34, and the bytes fed, with where the current frame attempt starts. None reads the abort label: "A claim about the hardware
must not depend on the labels" (60_exceptions.md R122). -/

namespace Sys2Proof.Machine

/-- The outcome is a next state with exactly these registers, outputs and pending inputs. The label is left out. -/
def Gives (o : Host.Outcome State Fault Refusal) (r : Regs) (out : Outputs) (inputs : List Input) : Prop :=
  ∃ t, o = .next t ∧ t.regs = r ∧ t.out = out ∧ t.inputs = inputs

/-- The outputs after a feed that emits no frame: `frame_done = 0`, `frame_id = 0x00` (40_frame_decoder.md R80), and
`take_data` as the step's take left it. -/
def Outputs.withoutFrame (o : Outputs) : Outputs := { o with frameDone := false, frameId := 0x00#8 }

/-- k steps, with the outputs of each step in order. -/
def runSteps : Nat → State → Host.Outcome (List Outputs × State) Fault Refusal
  | 0, s => .next ([], s)
  | k + 1, s => andThen (step s) (fun t => andThen (runSteps k t) (fun r => .next (t.out :: r.1, r.2)))

/-- The bytes that inputs feed, in order (20_memory.md R49). -/
def bytesFed (is : List Input) : List Byte := is.filterMap (fun i => i.feed)

/-- The invariants INV1 to INV5 and INV7 of 10_state.md R34, and the payload buffer's canonical form. INV6 speaks of the
bytes a frame fed: `fedAfter` below. -/
structure Inv (r : Regs) : Prop where
  /-- INV1. -/
  len_le : r.len.toNat ≤ Config.maxPayload
  /-- INV2. -/
  rc_le_len : r.rc ≤ r.len
  /-- INV3. -/
  data : r.st = St.data → r.rc < r.len
  /-- INV4. -/
  header : St.lengthLow ≤ r.st ∧ r.st ≤ St.sequence → r.rc = 0#4
  /-- INV5. -/
  checksum : St.checksumLow ≤ r.st ∧ r.st ≤ St.tail → r.rc = r.len
  /-- INV7. -/
  legal : St.Legal r.st
  /-- The payload buffer is in its canonical form. -/
  payload : Memory.wf r.payload

/-- Every byte fed since the start of a run or its last reset, in order, and the place in them of the byte just before
the one that the most recent `FEED.AHH.HEAD` step consumed: where the current frame attempt starts (40_frame_decoder.md
R98). -/
structure Fed where
  bytes : List Byte
  start : Nat
deriving DecidableEq, Repr

/-- Nothing fed yet. -/
def Fed.nothing : Fed := { bytes := [], start := 0 }

/-- The attempt in progress: the bytes fed from its start on. -/
def Fed.attempt (f : Fed) : List Byte := f.bytes.drop f.start

/-- What has been fed after the step from s, f being what was fed before it: every feed adds its byte, the byte itself; a
step that executes `FEED.AHH.HEAD` starts an attempt at the byte before its own (40_frame_decoder.md R83, R98); a reset
discards what was fed (70_reset_and_hazards.md R141). -/
def fedAfter (f : Fed) (s : State) : Fed :=
  if (nextInput s).reset then Fed.nothing
  else match (nextInput s).feed with
    | none => f
    | some b =>
      { bytes := f.bytes ++ [b],
        start := if decode (feedKey s.regs.st b) = .feedAhhHead then f.bytes.length - 1 else f.start }

/-- k steps, with what has been fed. -/
def runFed : Nat → Fed → State → Host.Outcome (Fed × State) Fault Refusal
  | 0, f, s => .next (f, s)
  | k + 1, f, s => andThen (step s) (fun t => runFed k (fedAfter f s) t)

end Sys2Proof.Machine
end

