-- ==== Sys2Proof/WellFormed.lean ====
section
/-! DEFINITION. Which terms of `Instr` stand for a row's keys: a row with an "except" column matches only when no other
row of the same state matches (30_encoding.md R67, R68). The other rows take every byte (30_encoding.md R63). -/

namespace Sys2Proof

/-- The operand checks of the three "except" rows of 30_encoding.md R67. -/
def Instr.wellFormed : Instr → Bool
  | .feedAhlScan b => b != Config.headLow
  | .feedAhhResync b => b != Config.headLow && b != Config.headHigh
  | .feedTailBad b => b != Config.tail
  | .feedAhlHead => true
  | .feedAhhHead => true
  | .feedAhhRehead => true
  | .feedLenlo _ => true
  | .feedLenhi _ => true
  | .feedType _ => true
  | .feedCmd _ => true
  | .feedSeq _ => true
  | .feedData _ => true
  | .feedCklo _ => true
  | .feedCkhi _ => true
  | .feedTailOk => true
  | .feedIllegalB _ => true
  | .feedIllegalCf _ _ => true
  | .take => true

/-- A well-formed operation, as a proposition. -/
abbrev Instr.WellFormed (i : Instr) : Prop := i.wellFormed = true

end Sys2Proof
end

