-- ==== Sys2Proof/Certificates/Slice0/Obligations.lean ====
section
/-! DEFINITION. The statements for the provers, each from a rule of spec/ or from a section of it. A result is stated as
the registers, outputs and pending inputs of the next state, all of them, so a result statement is also its frame: what
it does not name is unchanged. No statement reads the abort label (60_exceptions.md R122). "[decision]" in a docstring
says that the spec marks the rule as its own choice, with the D<n> that makes it. -/

open Sys2Proof Sys2Proof.Machine

/-! ### Encoding -/

/-- The encoder loses no bit: decoding the key of a well-formed operation gives it back, for every operand. -/
def Obligations.DecodeOfEncode : Prop :=
  ∀ i : Instr, i.WellFormed → decode (encode i) = i

/-- The decoder loses no bit: every FEED key is the key of the operation it decodes to, and every TAKE key (whose low 12
bits are don't-care bits) decodes to TAKE, whose key is 0x1000. -/
def Obligations.EncodeOfDecode : Prop :=
  ∀ k : Key, encode (decode k) = if Key.isTake k then takeKey else k

/-- 30_encoding.md R68, which the spec derives from R66 and R67: of the 18 rows of the opcode map exactly one matches a
key, the row of the operation the decoder reads, and that operation is well-formed. -/
def Obligations.EveryKeyMatchesExactlyItsRow : Prop :=
  ∀ k : Key, opcodeTable.filter (fun r => r.hits k) = [(decode k).row] ∧ (decode k).WellFormed

/-- Keys written out bit by bit from the "encoding" column of spec/opcode_table.json, one of each family, decode to the
operations they stand for. -/
def Obligations.WrittenKeysDecode : Prop :=
  decode 0b0000011110100#13 = .feedAhlHead ∧
  decode 0b0000011110101#13 = .feedAhlScan 0xF5#8 ∧
  decode 0b0000111110101#13 = .feedAhhHead ∧
  decode 0b0000111110100#13 = .feedAhhRehead ∧
  decode 0b0001000001000#13 = .feedLenlo 0x08#8 ∧
  decode 0b0010100000101#13 = .feedCmd 0x05#8 ∧
  decode 0b0011110101010#13 = .feedData 0xAA#8 ∧
  decode 0b0100110100101#13 = .feedCkhi 0xA5#8 ∧
  decode 0b0101011111011#13 = .feedTailOk ∧
  decode 0b0111111110100#13 = .feedIllegalCf 0b11#2 0xF4#8 ∧
  decode 0b1000000000000#13 = .take

/-- 30_encoding.md R66 [decision D6]: the fields of the decode key. Bit 12 is 0 for FEED and 1 for TAKE, bits 11 down to
8 are the code of `st`, bits 7 down to 0 the byte; the key of TAKE is 0x1000. -/
def Obligations.DecodeKeyFields : Prop :=
  ∀ (c : StCode) (b : Byte),
    (feedKey c b).toNat = c.toNat * 256 + b.toNat ∧ Key.isTake (feedKey c b) = false ∧
    Key.code (feedKey c b) = c ∧ Key.byte (feedKey c b) = b ∧ takeKey.toNat = 0x1000 ∧ Key.isTake takeKey = true

/-! ### A step runs the decoded operation -/

/-- A step without reset whose next input is i clears the outputs, consumes i and runs: for a feed alone the operation
its key decodes to; for a take alone TAKE; for both, TAKE and then the operation that the feed's key (formed with the
pre-step `st`) decodes to; for neither, nothing. -/
def Obligations.StepRunsDecodedOperations : Prop :=
  ∀ (s : State) (i : Input) (rest : List Input), s.inputs = i :: rest → i.reset = false →
    (∀ (b : Byte) (op : Instr), i.feed = some b → i.take = false → decode (feedKey s.regs.st b) = op →
      step s = exec op (clearOutputs { s with inputs := rest })) ∧
    (i.feed = none → i.take = true → step s = exec .take (clearOutputs { s with inputs := rest })) ∧
    (∀ (b : Byte) (op : Instr), i.feed = some b → i.take = true → decode (feedKey s.regs.st b) = op →
      step s = andThen (exec .take (clearOutputs { s with inputs := rest })) (fun t => exec op t)) ∧
    (i.feed = none → i.take = false → step s = .next (clearOutputs { s with inputs := rest }))

/-- The model's convention of log 12: `withFetchWord` places the operation of a key so that the very next step runs
exactly it, and `decodeTableWord` reads that operation from the key's number. -/
def Obligations.PlacedKeyIsTheNextOperation : Prop :=
  ∀ (s : State) (k : Key) (nbits : Nat), 13 ≤ nbits →
    decodeTableWord nbits k.toNat = some (decode k) ∧
    step (s.withFetchWord nbits k.toNat) =
      exec (decode k)
        (clearOutputs { s with regs := { s.regs with st := if Key.isTake k then s.regs.st else Key.code k } })

/-! ### Head search -/

/-- 40_frame_decoder.md R81. -/
def Obligations.HeadLowFoundWhileScanning : Prop :=
  decode 0x00F4#13 = .feedAhlHead ∧ feedKey St.awaitHeadLow Config.headLow = 0x00F4#13 ∧
  ∀ s : State, Gives (exec .feedAhlHead s) { s.regs with st := St.awaitHeadHigh } s.out.withoutFrame s.inputs

/-- 40_frame_decoder.md R82: with `st = AwaitHeadLow` every register is unchanged. -/
def Obligations.OtherByteWhileScanning : Prop :=
  ∀ b : Byte, b ≠ Config.headLow →
    decode (feedKey St.awaitHeadLow b) = .feedAhlScan b ∧
    ∀ s : State,
      Gives (exec (.feedAhlScan b) s) { s.regs with st := St.awaitHeadLow } s.out.withoutFrame s.inputs ∧
      (s.regs.st = St.awaitHeadLow → Gives (exec (.feedAhlScan b) s) s.regs s.out.withoutFrame s.inputs)

/-- 40_frame_decoder.md R83 [decision D8]: a frame attempt starts. -/
def Obligations.HeadHighStartsFrameAttempt : Prop :=
  decode 0x01F5#13 = .feedAhhHead ∧ feedKey St.awaitHeadHigh Config.headHigh = 0x01F5#13 ∧
  ∀ s : State, Gives (exec .feedAhhHead s) { s.regs with rc := 0#4, st := St.lengthLow } s.out.withoutFrame s.inputs

/-- 40_frame_decoder.md R84. -/
def Obligations.RepeatedHeadLowStays : Prop :=
  decode 0x01F4#13 = .feedAhhRehead ∧ feedKey St.awaitHeadHigh Config.headLow = 0x01F4#13 ∧
  ∀ s : State, Gives (exec .feedAhhRehead s) { s.regs with st := St.awaitHeadHigh } s.out.withoutFrame s.inputs

/-- 40_frame_decoder.md R85; its model-only label is left out (60_exceptions.md R122). -/
def Obligations.BadHeadHighResynchronizes : Prop :=
  ∀ b : Byte, b ≠ Config.headLow → b ≠ Config.headHigh →
    decode (feedKey St.awaitHeadHigh b) = .feedAhhResync b ∧
    ∀ s : State, Gives (exec (.feedAhhResync b) s) { s.regs with st := St.awaitHeadLow } s.out.withoutFrame s.inputs

/-! ### Length -/

/-- 40_frame_decoder.md R86 [decision D7]. -/
def Obligations.LengthLowIsHeld : Prop :=
  ∀ b : Byte, decode (feedKey St.lengthLow b) = .feedLenlo b ∧
    ∀ s : State,
      Gives (exec (.feedLenlo b) s) { s.regs with lenLo := b, st := St.lengthHigh } s.out.withoutFrame s.inputs

/-- 40_frame_decoder.md R87 [decision D7]: with L the 16-bit little-endian length, L of 8 or less is accepted and becomes
`len`; a larger L is rejected with every other register, `len` among them, unchanged. The label is left out. -/
def Obligations.LengthHighAcceptsUpToEight : Prop :=
  ∀ b : Byte, decode (feedKey St.lengthHigh b) = .feedLenhi b ∧
    ∀ s : State,
      (b.toNat * 256 + s.regs.lenLo.toNat ≤ 8 →
        ∃ n : Count, n.toNat = b.toNat * 256 + s.regs.lenLo.toNat ∧
          Gives (exec (.feedLenhi b) s) { s.regs with len := n, st := St.type } s.out.withoutFrame s.inputs) ∧
      (8 < b.toNat * 256 + s.regs.lenLo.toNat →
        Gives (exec (.feedLenhi b) s) { s.regs with st := St.awaitHeadLow } s.out.withoutFrame s.inputs)

/-! ### Discarded header fields -/

/-- 40_frame_decoder.md R88 and R89 [decision D11]: TYPE and CMD only move `st`; no register records the byte. -/
def Obligations.TypeAndCmdAreDiscarded : Prop :=
  ∀ b : Byte, decode (feedKey St.type b) = .feedType b ∧ decode (feedKey St.command b) = .feedCmd b ∧
    ∀ s : State,
      Gives (exec (.feedType b) s) { s.regs with st := St.command } s.out.withoutFrame s.inputs ∧
      Gives (exec (.feedCmd b) s) { s.regs with st := St.sequence } s.out.withoutFrame s.inputs

/-- 40_frame_decoder.md R90. -/
def Obligations.SeqSelectsDataOrChecksum : Prop :=
  ∀ b : Byte, decode (feedKey St.sequence b) = .feedSeq b ∧
    ∀ s : State,
      (0 < s.regs.len.toNat →
        Gives (exec (.feedSeq b) s) { s.regs with st := St.data } s.out.withoutFrame s.inputs) ∧
      (s.regs.len.toNat = 0 →
        Gives (exec (.feedSeq b) s) { s.regs with st := St.checksumLow } s.out.withoutFrame s.inputs)

/-! ### Payload -/

/-- 40_frame_decoder.md R91 [decision D19]. With `rc < len` the byte is stored at index `rc` (an entry of the buffer, rc
below 8: the other case is `DataOutsideBufferFaults`), every other entry reads as before, `rc` goes up by one, and `st`
is `ChecksumLow` exactly when that was the last DATA byte. With `rc >= len` only `st` changes, to `ChecksumLow`. -/
def Obligations.DataByteIsStoredAtRc : Prop :=
  ∀ b : Byte, decode (feedKey St.data b) = .feedData b ∧
    ∀ s : State,
      (s.regs.rc.toNat < s.regs.len.toNat → s.regs.rc.toNat < 8 →
        ∃ (m : Memory) (n : Count),
          Gives (exec (.feedData b) s)
            { s.regs with
                payload := m, rc := n, st := if n = s.regs.len then St.checksumLow else St.data }
            s.out.withoutFrame s.inputs ∧
          n.toNat = s.regs.rc.toNat + 1 ∧
          Memory.cell m s.regs.rc.toNat = b ∧
          ∀ a : Nat, a ≠ s.regs.rc.toNat → Memory.cell m a = Memory.cell s.regs.payload a) ∧
      (s.regs.len.toNat ≤ s.regs.rc.toNat →
        Gives (exec (.feedData b) s) { s.regs with st := St.checksumLow } s.out.withoutFrame s.inputs)

/-- The model's choice of log 9, on 20_memory.md R41 "requires 0 <= i < MAX_PAYLOAD": a DATA byte that would be written
at an index that is no entry of the buffer stops the machine. -/
def Obligations.DataOutsideBufferFaults : Prop :=
  ∀ (b : Byte) (s : State), s.regs.rc.toNat < s.regs.len.toNat → 8 ≤ s.regs.rc.toNat →
    exec (.feedData b) s = .fault .payloadIndex

/-! ### Checksum and tail -/

/-- 40_frame_decoder.md R92 [decision D9]: the low byte is written, the high byte stays. -/
def Obligations.ChecksumLowIsCaptured : Prop :=
  ∀ b : Byte, decode (feedKey St.checksumLow b) = .feedCklo b ∧
    ∀ s : State, ∃ h : Half,
      Gives (exec (.feedCklo b) s) { s.regs with cksum := h, st := St.checksumHigh } s.out.withoutFrame s.inputs ∧
      h.extractLsb' 0 8 = b ∧ h.extractLsb' 8 8 = s.regs.cksum.extractLsb' 8 8

/-- 40_frame_decoder.md R93 [decisions D9, D10]: the high byte is written, the low byte stays, and no value is refused. -/
def Obligations.ChecksumHighIsCaptured : Prop :=
  ∀ b : Byte, decode (feedKey St.checksumHigh b) = .feedCkhi b ∧
    ∀ s : State, ∃ h : Half,
      Gives (exec (.feedCkhi b) s) { s.regs with cksum := h, st := St.tail } s.out.withoutFrame s.inputs ∧
      h.extractLsb' 8 8 = b ∧ h.extractLsb' 0 8 = s.regs.cksum.extractLsb' 0 8

/-- 40_frame_decoder.md R94 and 41_command_latch.md R110: the identifier is 0x00 for `len = 0`, else the first entry of
the buffer; it is published whatever the latch held, and emitted. -/
def Obligations.GoodTailPublishes : Prop :=
  decode 0x0AFB#13 = .feedTailOk ∧ feedKey St.tail Config.tail = 0x0AFB#13 ∧
  ∀ (s : State) (id : Byte), id = (if s.regs.len.toNat = 0 then 0x00#8 else Memory.cell s.regs.payload 0) →
    Gives (exec .feedTailOk s) { s.regs with latch := id, st := St.awaitHeadLow }
      { s.out with frameDone := true, frameId := id } s.inputs

/-- 40_frame_decoder.md R95; its model-only label is left out. -/
def Obligations.BadTailDropsFrame : Prop :=
  ∀ b : Byte, b ≠ Config.tail →
    decode (feedKey St.tail b) = .feedTailBad b ∧
    ∀ s : State, Gives (exec (.feedTailBad b) s) { s.regs with st := St.awaitHeadLow } s.out.withoutFrame s.inputs

/-- 40_frame_decoder.md R96 [decision D5]: from each of the five illegal codes; the label is left out. -/
def Obligations.IllegalCodeRecovers : Prop :=
  ∀ (b : Byte) (ss : BitVec 2) (s : State),
    decode (feedKey 0xB#4 b) = .feedIllegalB b ∧
    decode (feedKey (0b11#2 ++ ss) b) = .feedIllegalCf ss b ∧
    Gives (exec (.feedIllegalB b) s) { s.regs with st := St.awaitHeadLow } s.out.withoutFrame s.inputs ∧
    Gives (exec (.feedIllegalCf ss b) s) { s.regs with st := St.awaitHeadLow } s.out.withoutFrame s.inputs

/-! ### Latch -/

/-- 41_command_latch.md R111: the latch is read and cleared; no other register changes. -/
def Obligations.TakeReadsAndClears : Prop :=
  decode 0x1000#13 = .take ∧
  ∀ s : State,
    Gives (exec .take s) { s.regs with latch := 0x00#8 } { s.out with takeData := s.regs.latch } s.inputs

/-- 41_command_latch.md R113 [decision D15]. For every byte and state in which the feed alone steps to a state u: the
step with a take as well differs from it only in that the take returns the pre-step latch, and the latch ends at the
identifier the feed published, or at 0x00 where it published none. -/
def Obligations.TakeIsOrderedBeforePublish : Prop :=
  ∀ (s u : State) (b : Byte) (rest : List Input), s.inputs = Input.ofByteAndTake b :: rest →
    step { s with inputs := Input.ofByte b :: rest } = .next u →
    Gives (step s) { u.regs with latch := if u.out.frameDone then u.out.frameId else 0x00#8 }
      { u.out with takeData := s.regs.latch } rest

/-- The order PUBLISH_FIRST that 93_implementation_defined.md lets a model take as an argument (log 6): with a take and a
good tail in one step the take returns the new identifier and the latch ends at 0x00. -/
def Obligations.PublishFirstOrderBypasses : Prop :=
  ∀ (s : State) (id : Byte), s.regs.st = St.tail →
    id = (if s.regs.len.toNat = 0 then 0x00#8 else Memory.cell s.regs.payload 0) →
    Gives (serveEvents .publishFirst (Input.ofByteAndTake Config.tail) s)
      { s.regs with latch := 0x00#8, st := St.awaitHeadLow }
      { frameDone := true, frameId := id, takeData := id } s.inputs

/-- What every step does to the latch and the ports (10_state.md R31, R36, 20_memory.md R48, 41_command_latch.md R114):
a reset clears all; else the latch is the published identifier where the step publishes, else 0x00 where it takes, else
unchanged; `take_data` is the pre-step latch exactly where it takes; the step publishes exactly where it feeds 0xFB in
state `Tail`; without a publish `frame_id` is 0x00. -/
def Obligations.LatchIsLastWriteCell : Prop :=
  ∀ s t : State, step s = .next t →
    ((nextInput s).reset = true → t.regs.latch = 0x00#8 ∧ t.out = ⟨false, 0x00#8, 0x00#8⟩) ∧
    ((nextInput s).reset = false →
      t.regs.latch =
        (if t.out.frameDone then t.out.frameId else if (nextInput s).take then 0x00#8 else s.regs.latch) ∧
      t.out.takeData = (if (nextInput s).take then s.regs.latch else 0x00#8) ∧
      (t.out.frameDone = true ↔ s.regs.st = St.tail ∧ (nextInput s).feed = some 0xFB#8) ∧
      (t.out.frameDone = false → t.out.frameId = 0x00#8))

/-- 20_memory.md R46, the sentence on `take`: two takes in succession, from every state, return the value once and then
0x00. With other events before, between or after, `LatchIsLastWriteCell` speaks. -/
def Obligations.TwoTakesReturnValueThenZero : Prop :=
  ∀ (s : State) (rest : List Input), s.inputs = Input.ofTake :: Input.ofTake :: rest →
    ∃ t : State, runSteps 2 s = .next ([⟨false, 0x00#8, s.regs.latch⟩, ⟨false, 0x00#8, 0x00#8⟩], t) ∧
      t.regs = { s.regs with latch := 0x00#8 } ∧ t.inputs = rest

/-! ### Reset and idle -/

/-- 70_reset_and_hazards.md R141 and R140 [decisions D12, D13, D14]: whatever feed and take stand in the same step, every
register takes its reset value, the payload is not written, the outputs are 0; `State.reset` has the same values. -/
def Obligations.ResetWinsAndInitializes : Prop :=
  (∀ (s : State) (i : Input) (rest : List Input), s.inputs = i :: rest → i.reset = true →
    Gives (step s)
      { st := St.awaitHeadLow, lenLo := 0x00#8, len := 0#4, rc := 0#4, cksum := 0x0000#16,
        payload := s.regs.payload, latch := 0x00#8 }
      ⟨false, 0x00#8, 0x00#8⟩ rest) ∧
  ∃ m : Memory, State.reset.regs =
    { st := St.awaitHeadLow, lenLo := 0x00#8, len := 0#4, rc := 0#4, cksum := 0x0000#16, payload := m,
      latch := 0x00#8 }

/-- 10_state.md R38 [decision D28] and 60_exceptions.md R129: any number of idle steps, delivered or with no input left,
leaves every register; each drives outputs of 0. There is no timeout. -/
def Obligations.IdleStepsHoldEveryRegister : Prop :=
  ∀ (k : Nat) (s : State) (rest : List Input),
    (s.inputs = List.replicate k Input.idle ++ rest →
      ∃ t : State, runSteps k s = .next (List.replicate k ⟨false, 0x00#8, 0x00#8⟩, t) ∧ t.regs = s.regs ∧
        t.inputs = rest) ∧
    (s.inputs = [] →
      ∃ t : State, runSteps k s = .next (List.replicate k ⟨false, 0x00#8, 0x00#8⟩, t) ∧ t.regs = s.regs ∧
        t.inputs = [])

/-! ### Whole-machine rules -/

/-- 10_state.md R37 "No input makes it fault or hang" and 60_exceptions.md R120: with INV1 (which every reachable state
meets), every step on every input answers a next state, and consumes its input. -/
def Obligations.NoInputFaults : Prop :=
  ∀ s : State, s.regs.len.toNat ≤ 8 → ∃ t : State, step s = .next t ∧ t.inputs = s.inputs.tail

/-- 10_state.md R22, 41_command_latch.md R111: a step without a feed or a reset writes no register but the latch; a step
with one leaves a legal code in `st`, from any state, one with an illegal code included. -/
def Obligations.OnlyFeedOrResetWritesSt : Prop :=
  ∀ s t : State, step s = .next t →
    ((nextInput s).reset = false → (nextInput s).feed = none →
      t.regs = { s.regs with latch := if (nextInput s).take then 0x00#8 else s.regs.latch }) ∧
    ((nextInput s).reset = true ∨ (nextInput s).feed.isSome = true → t.regs.st.toNat ≤ 10)

/-- The "written by" column of 10_state.md R21 and 20_memory.md R40: without a reset, a step changes each in-flight
register only in the states of the rules listed for it, and the payload only at entry `rc` in state `Data`. -/
def Obligations.EachRegisterHasOnlyItsWriters : Prop :=
  ∀ s t : State, step s = .next t → (nextInput s).reset = false →
    (t.regs.lenLo ≠ s.regs.lenLo → s.regs.st = St.lengthLow) ∧
    (t.regs.len ≠ s.regs.len → s.regs.st = St.lengthHigh ∧ t.regs.st = St.type) ∧
    (t.regs.rc ≠ s.regs.rc →
      (s.regs.st = St.awaitHeadHigh ∧ (nextInput s).feed = some 0xF5#8 ∧ t.regs.rc = 0#4) ∨
      (s.regs.st = St.data ∧ t.regs.rc.toNat = s.regs.rc.toNat + 1)) ∧
    (t.regs.cksum ≠ s.regs.cksum → s.regs.st = St.checksumLow ∨ s.regs.st = St.checksumHigh) ∧
    (∀ a : Nat, Memory.cell t.regs.payload a ≠ Memory.cell s.regs.payload a →
      s.regs.st = St.data ∧ a = s.regs.rc.toNat ∧ s.regs.rc < s.regs.len ∧
        (nextInput s).feed = some (Memory.cell t.regs.payload a))

/-- 60_exceptions.md R123, which the spec derives: a feed that returns to `AwaitHeadLow` without completing a frame (an
abort, or scanning) writes `st` and nothing else, so a pending identifier survives a dropped frame. -/
def Obligations.AbortWritesOnlySt : Prop :=
  ∀ (s t : State) (b : Byte) (rest : List Input), s.inputs = Input.ofByte b :: rest → step s = .next t →
    t.regs.st = St.awaitHeadLow → t.out.frameDone = false →
    t.regs = { s.regs with st := St.awaitHeadLow } ∧ t.out = ⟨false, 0x00#8, 0x00#8⟩

/-- The state right after reset meets the invariants of 10_state.md R34; that its payload is in canonical form is the
model's choice of log 4. -/
def Obligations.ResetMeetsInvariants : Prop := Inv State.reset.regs

/-- 10_state.md R34, INV1 to INV5 and INV7, which the spec derives by induction over steps, and the canonical form of the
payload (the model's): from every state that meets them, whatever the input, the step answers a next state that meets
them. -/
def Obligations.EveryStepKeepsInvariants : Prop :=
  ∀ s : State, Inv s.regs → ∃ t : State, step s = .next t ∧ Inv t.regs

/-- INV6 of 10_state.md R34, which the spec derives: in a run of any inputs from any state in `AwaitHeadLow`, whatever
the registers held, the current frame attempt is the bytes fed from a 0xF4 and 0xF5 on, and the entries below `rc` hold
its DATA bytes, in arrival order (they follow its 7 head and header bytes). -/
def Obligations.PayloadHoldsCurrentFramesData : Prop :=
  ∀ (k : Nat) (s₀ s : State) (f : Fed), s₀.regs.st = St.awaitHeadLow →
    runFed k Fed.nothing s₀ = .next (f, s) → St.data ≤ s.regs.st → St.Legal s.regs.st →
    [0xF4#8, 0xF5#8] <+: f.attempt ∧
    ∀ j : Nat, j < s.regs.rc.toNat → f.attempt[7 + j]? = some (Memory.cell s.regs.payload j)

/-- 70_reset_and_hazards.md R142, which the spec derives: what the payload buffer holds while the decoder waits for a
head (after reset among others) is unobservable: no inputs make any output of any later step depend on it. -/
def Obligations.PayloadBeforeFrameIsUnobservable : Prop :=
  ∀ (k : Nat) (s : State) (p : Memory), s.regs.st = St.awaitHeadLow →
    ∃ (outs : List Outputs) (t u : State), runSteps k s = .next (outs, t) ∧
      runSteps k { s with regs := { s.regs with payload := p } } = .next (outs, u)

/-! ### Frames -/

/-- 40_frame_decoder.md R97, which the spec derives. The inputs `pre ++ [last]` feed exactly the bytes of a well-formed
frame, the last one its TAIL, with no reset but with idle steps and takes in between wherever one likes; TYPE, CMD, SEQ
and the checksum are any bytes. From `AwaitHeadLow` or `AwaitHeadHigh`, whatever the other registers hold, exactly one
publish occurs, in the step of the TAIL byte, with the first DATA byte or 0x00 for none; afterwards the decoder is in
`AwaitHeadLow` and the registers hold the frame's length, count, checksum and DATA bytes. -/
def Obligations.WellFormedFramePublishesOnce : Prop :=
  ∀ (s : State) (t c q : Byte) (data : List Byte) (k : Half) (pre : List Input) (last : Input) (rest : List Input),
    s.regs.st = St.awaitHeadLow ∨ s.regs.st = St.awaitHeadHigh → data.length ≤ 8 →
    (∀ i ∈ pre, i.reset = false) → last.reset = false → last.feed = some Config.tail →
    bytesFed pre ++ [Config.tail] = frameBytes t c q data k →
    s.inputs = pre ++ last :: rest →
    ∃ (outs : List Outputs) (o : Outputs) (u : State),
      runSteps (pre.length + 1) s = .next (outs ++ [o], u) ∧
      outs.length = pre.length ∧ (∀ x ∈ outs, x.frameDone = false) ∧
      o.frameDone = true ∧ o.frameId = data.headD 0x00#8 ∧
      u.regs.latch = data.headD 0x00#8 ∧ u.regs.st = St.awaitHeadLow ∧ u.inputs = rest ∧
      u.regs.len.toNat = data.length ∧ u.regs.rc = u.regs.len ∧ u.regs.cksum = k ∧
      ∀ j : Nat, j < data.length → data[j]? = some (Memory.cell u.regs.payload j)

/-- 40_frame_decoder.md R98, which the spec derives: in a run of any inputs from any state in `AwaitHeadLow`, whatever
the registers held, a step that publishes executes `FEED.TAIL.OK` and has just consumed the TAIL byte of a well-formed
frame. All the bytes fed since the run's start or its last reset, each as it was fed, end in that frame; it starts at the
byte just before the one that the most recent `FEED.AHH.HEAD` step consumed; and the identifier is its first DATA byte,
or 0x00 for none. -/
def Obligations.NoPublishWithoutFrame : Prop :=
  ∀ (n : Nat) (s₀ s u : State) (f : Fed), s₀.regs.st = St.awaitHeadLow →
    runFed n Fed.nothing s₀ = .next (f, s) → step s = .next u → u.out.frameDone = true →
    s.regs.st = St.tail ∧ (nextInput s).feed = some 0xFB#8 ∧
    ∃ (t c q : Byte) (data : List Byte) (k : Half), data.length ≤ 8 ∧
      frameBytes t c q data k <:+ (fedAfter f s).bytes ∧ (fedAfter f s).attempt = frameBytes t c q data k ∧
      u.out.frameId = data.headD 0x00#8

/-- 40_frame_decoder.md R99, which the spec derives: two frames fed back to back publish in order, and a take after them
returns only the second identifier; the first is lost (70_reset_and_hazards.md R145). -/
def Obligations.BackToBackFramesPublishInOrder : Prop :=
  ∀ (s : State) (t₁ c₁ q₁ t₂ c₂ q₂ : Byte) (d₁ d₂ : List Byte) (k₁ k₂ : Half) (rest : List Input),
    s.regs.st = St.awaitHeadLow → d₁.length ≤ 8 → d₂.length ≤ 8 →
    s.inputs =
      feeds (frameBytes t₁ c₁ q₁ d₁ k₁ ++ frameBytes t₂ c₂ q₂ d₂ k₂) ++ Input.ofTake :: rest →
    ∃ (outs : List Outputs) (o : Outputs) (u : State),
      runSteps (d₁.length + d₂.length + 21) s = .next (outs ++ [o], u) ∧
      (outs.filter (fun x => x.frameDone)).map (fun x => x.frameId) = [d₁.headD 0x00#8, d₂.headD 0x00#8] ∧
      o = ⟨false, 0x00#8, d₂.headD 0x00#8⟩ ∧ u.regs.latch = 0x00#8 ∧ u.inputs = rest

/-- 40_frame_decoder.md R100, which the spec derives: a garbage byte after a head-low byte returns to `AwaitHeadLow` and
changes no register, so what follows decodes as if neither byte had come. -/
def Obligations.GarbageBetweenHeadBytes : Prop :=
  ∀ (s : State) (g : Byte) (rest : List Input), s.regs.st = St.awaitHeadLow → g ≠ 0xF4#8 → g ≠ 0xF5#8 →
    s.inputs = feeds [0xF4#8, g] ++ rest →
    ∃ u : State, runSteps 2 s = .next ([⟨false, 0x00#8, 0x00#8⟩, ⟨false, 0x00#8, 0x00#8⟩], u) ∧
      u.regs = s.regs ∧ u.inputs = rest

/-- 40_frame_decoder.md R101, which the spec derives: a header that declares more than 8 bytes ends in `AwaitHeadLow`
after its fourth byte; `len` and the payload are unchanged, and of the rest only `rc` (cleared) and `len_lo` are
written. -/
def Obligations.OversizedLengthResynchronizes : Prop :=
  ∀ (s : State) (lo hi : Byte) (rest : List Input), s.regs.st = St.awaitHeadLow →
    8 < hi.toNat * 256 + lo.toNat → s.inputs = feeds [0xF4#8, 0xF5#8, lo, hi] ++ rest →
    ∃ u : State, runSteps 4 s = .next (List.replicate 4 ⟨false, 0x00#8, 0x00#8⟩, u) ∧
      u.regs = { s.regs with rc := 0#4, lenLo := lo } ∧ u.inputs = rest

/-- 70_reset_and_hazards.md R147, which the spec derives: a byte 0xF4 that fails the length check or the tail check is
consumed and starts no head, so a following 0xF5 is scanned past; nothing but `st` changes. -/
def Obligations.RejectingByteStartsNoHead : Prop :=
  ∀ (s : State) (rest : List Input), s.regs.st = St.lengthHigh ∨ s.regs.st = St.tail →
    s.inputs = feeds [0xF4#8, 0xF5#8] ++ rest →
    ∃ u : State, runSteps 2 s = .next ([⟨false, 0x00#8, 0x00#8⟩, ⟨false, 0x00#8, 0x00#8⟩], u) ∧
      u.regs = { s.regs with st := St.awaitHeadLow } ∧ u.inputs = rest

/-- 70_reset_and_hazards.md R144, which the spec derives: in state `Data` with n DATA bytes still to come, the next n
bytes fed, whatever they are (a genuine frame's head, header or tail among them), are stored as DATA by position; none
publishes, and after the n-th the decoder is in `ChecksumLow`. INV1 and INV3 rule out states no run reaches. -/
def Obligations.TruncatedFrameAbsorbsBytes : Prop :=
  ∀ (s : State) (bytes : List Byte) (rest : List Input), s.regs.st = St.data → s.regs.len.toNat ≤ 8 →
    s.regs.rc.toNat < s.regs.len.toNat → s.regs.rc.toNat + bytes.length = s.regs.len.toNat →
    s.inputs = feeds bytes ++ rest →
    ∃ (m : Memory) (u : State),
      runSteps bytes.length s = .next (List.replicate bytes.length ⟨false, 0x00#8, 0x00#8⟩, u) ∧
      u.regs = { s.regs with st := St.checksumLow, rc := s.regs.len, payload := m } ∧ u.inputs = rest ∧
      (∀ j : Nat, j < bytes.length → bytes[j]? = some (Memory.cell m (s.regs.rc.toNat + j))) ∧
      ∀ a : Nat, a < s.regs.rc.toNat ∨ s.regs.len.toNat ≤ a → Memory.cell m a = Memory.cell s.regs.payload a
end

