-- ==== Sys2Proof/Laws/Memory.lean ====
section
/-! SUPPORT. The payload buffer: read after write, a write leaves every other entry, every operation keeps the canonical
form, and what MemRead and MemWrite answer (20_memory.md R41). -/

namespace Sys2Proof.Machine

@[simp] theorem cell_nil (a : Nat) : Memory.cell [] a = Memory.unlisted a := rfl

theorem cell_cons (c : Host.Cell) (m : Memory) (a : Nat) :
    Memory.cell (c :: m) a = if c.1 = a then c.2 else Memory.cell m a := rfl

theorem cell_insertCell (m : Memory) (a b : Nat) (v : Byte) :
    Memory.cell (Memory.insertCell m a v) b = if b = a then v else Memory.cell m b := by
  induction m with
  | nil => simp [Memory.insertCell, cell_cons, eq_comm]
  | cons c m ih =>
    simp only [Memory.insertCell]
    split
    · simp [cell_cons, eq_comm]
    · split
      · next h => subst h; simp only [cell_cons, eq_comm]; split <;> rfl
      · next h1 h2 =>
        simp only [cell_cons, ih]
        split
        · next h => rw [if_neg]; omega
        · rfl

theorem cell_filter_ne (m : Memory) (a b : Nat) :
    Memory.cell (m.filter (fun c => c.1 != a)) b = if b = a then Memory.unlisted a else Memory.cell m b := by
  induction m with
  | nil => by_cases h : b = a <;> simp [h]
  | cons c m ih =>
    by_cases hc : c.1 = a
    · rw [List.filter_cons_of_neg (by simp [hc]), ih, cell_cons]
      by_cases hb : b = a
      · simp [hb]
      · rw [if_neg hb, if_neg hb, if_neg (by omega)]
    · rw [List.filter_cons_of_pos (by simp [hc]), cell_cons, cell_cons, ih]
      by_cases hb : c.1 = b
      · rw [if_pos hb, if_pos hb, if_neg (by omega)]
      · rw [if_neg hb, if_neg hb]

/-- What every entry reads as after a write. -/
theorem cell_setCell (m : Memory) (a b : Nat) (v : Byte) :
    Memory.cell (Memory.setCell m a v) b = if b = a then v else Memory.cell m b := by
  unfold Memory.setCell
  split
  · next h => rw [cell_filter_ne, h]
  · exact cell_insertCell m a b v

@[simp] theorem cell_setCell_same (m : Memory) (a : Nat) (v : Byte) :
    Memory.cell (Memory.setCell m a v) a = v := by simp [cell_setCell]

theorem cell_setCell_other (m : Memory) {a b : Nat} (v : Byte) (h : b ≠ a) :
    Memory.cell (Memory.setCell m a v) b = Memory.cell m b := by simp [cell_setCell, h]

theorem wf_nil : Memory.wf [] := by decide

theorem mem_insertCell {m : Memory} {a : Nat} {v : Byte} {c : Host.Cell} (h : c ∈ Memory.insertCell m a v) :
    c = (a, v) ∨ c ∈ m := by
  induction m with
  | nil => simpa [Memory.insertCell] using h
  | cons d m ih =>
    simp only [Memory.insertCell] at h
    split at h
    · simpa using h
    · split at h
      · rcases List.mem_cons.1 h with h | h
        · exact .inl h
        · exact .inr (List.mem_cons_of_mem _ h)
      · rcases List.mem_cons.1 h with h | h
        · exact .inr (h ▸ List.mem_cons_self)
        · exact (ih h).imp id (List.mem_cons_of_mem _)

theorem pairwise_insertCell {m : Memory} (h : m.Pairwise (fun c d => c.1 < d.1)) (a : Nat) (v : Byte) :
    (Memory.insertCell m a v).Pairwise (fun c d => c.1 < d.1) := by
  induction m with
  | nil => simp [Memory.insertCell]
  | cons c m ih =>
    obtain ⟨hc, hm⟩ := List.pairwise_cons.1 h
    simp only [Memory.insertCell]
    split
    · next hlt =>
      refine List.pairwise_cons.2 ⟨fun d hd => ?_, h⟩
      rcases List.mem_cons.1 hd with rfl | hd
      · exact hlt
      · exact lt_trans hlt (hc d hd)
    · split
      · next heq => exact List.pairwise_cons.2 ⟨fun d hd => heq ▸ hc d hd, hm⟩
      · refine List.pairwise_cons.2 ⟨fun d hd => ?_, ih hm⟩
        rcases mem_insertCell hd with rfl | hd
        · show c.1 < a
          omega
        · exact hc d hd

/-- A write inside the buffer keeps the canonical form. -/
theorem wf_setCell {m : Memory} (h : Memory.wf m) {a : Nat} (ha : a < Config.maxPayload) (v : Byte) :
    Memory.wf (Memory.setCell m a v) := by
  unfold Memory.setCell
  split
  · exact ⟨h.1.filter _, fun c hc => h.2 c (List.mem_filter.1 hc).1⟩
  · next hv =>
    refine ⟨pairwise_insertCell h.1 a v, fun c hc => ?_⟩
    rcases mem_insertCell hc with rfl | hc
    · exact ⟨ha, hv⟩
    · exact h.2 c hc

/-- Everything MemWrite can answer. -/
theorem memWrite_eq_some {i : Nat} {v : Byte} {m m' : Memory} :
    memWrite i v m = some m' ↔ i < Config.maxPayload ∧ m' = Memory.setCell m i v := by
  unfold memWrite
  split <;> simp_all [eq_comm]

/-- MemWrite keeps the canonical form. -/
theorem wf_memWrite {i : Nat} {v : Byte} {m m' : Memory} (h : Memory.wf m) (hw : memWrite i v m = some m') :
    Memory.wf m' := by
  obtain ⟨hi, rfl⟩ := memWrite_eq_some.1 hw
  exact wf_setCell h hi v

/-- MemWrite answers nothing exactly outside the buffer. -/
theorem memWrite_eq_none {i : Nat} {v : Byte} {m : Memory} :
    memWrite i v m = none ↔ Config.maxPayload ≤ i := by
  unfold memWrite
  split <;> simp_all

/-- Everything MemRead can answer. -/
theorem memRead_eq_some {i : Nat} {m : Memory} {v : Byte} :
    memRead i m = some v ↔ i < Config.maxPayload ∧ v = Memory.cell m i := by
  unfold memRead
  split <;> simp_all [eq_comm]

end Sys2Proof.Machine
end

