-- ==== Sys2Proof/Laws/State.lean ====
section
/-! SUPPORT. One lemma per part of State per update, so that no proof unfolds a record update. -/

namespace Sys2Proof.Machine

variable (s : State)

@[simp] theorem setSt_regs (c : StCode) : (setSt c s).regs = { s.regs with st := c } := rfl
@[simp] theorem setSt_out (c : StCode) : (setSt c s).out = s.out := rfl
@[simp] theorem setSt_label (c : StCode) : (setSt c s).label = s.label := rfl
@[simp] theorem setSt_inputs (c : StCode) : (setSt c s).inputs = s.inputs := rfl

@[simp] theorem setLenLo_regs (b : Byte) : (setLenLo b s).regs = { s.regs with lenLo := b } := rfl
@[simp] theorem setLenLo_out (b : Byte) : (setLenLo b s).out = s.out := rfl
@[simp] theorem setLenLo_label (b : Byte) : (setLenLo b s).label = s.label := rfl
@[simp] theorem setLenLo_inputs (b : Byte) : (setLenLo b s).inputs = s.inputs := rfl

@[simp] theorem setLen_regs (n : Count) : (setLen n s).regs = { s.regs with len := n } := rfl
@[simp] theorem setLen_out (n : Count) : (setLen n s).out = s.out := rfl
@[simp] theorem setLen_label (n : Count) : (setLen n s).label = s.label := rfl
@[simp] theorem setLen_inputs (n : Count) : (setLen n s).inputs = s.inputs := rfl

@[simp] theorem setRc_regs (n : Count) : (setRc n s).regs = { s.regs with rc := n } := rfl
@[simp] theorem setRc_out (n : Count) : (setRc n s).out = s.out := rfl
@[simp] theorem setRc_label (n : Count) : (setRc n s).label = s.label := rfl
@[simp] theorem setRc_inputs (n : Count) : (setRc n s).inputs = s.inputs := rfl

@[simp] theorem setCksum_regs (h : Half) : (setCksum h s).regs = { s.regs with cksum := h } := rfl
@[simp] theorem setCksum_out (h : Half) : (setCksum h s).out = s.out := rfl
@[simp] theorem setCksum_label (h : Half) : (setCksum h s).label = s.label := rfl
@[simp] theorem setCksum_inputs (h : Half) : (setCksum h s).inputs = s.inputs := rfl

@[simp] theorem setPayload_regs (m : Memory) : (setPayload m s).regs = { s.regs with payload := m } := rfl
@[simp] theorem setPayload_out (m : Memory) : (setPayload m s).out = s.out := rfl
@[simp] theorem setPayload_label (m : Memory) : (setPayload m s).label = s.label := rfl
@[simp] theorem setPayload_inputs (m : Memory) : (setPayload m s).inputs = s.inputs := rfl

@[simp] theorem setLatch_regs (b : Byte) : (setLatch b s).regs = { s.regs with latch := b } := rfl
@[simp] theorem setLatch_out (b : Byte) : (setLatch b s).out = s.out := rfl
@[simp] theorem setLatch_label (b : Byte) : (setLatch b s).label = s.label := rfl
@[simp] theorem setLatch_inputs (b : Byte) : (setLatch b s).inputs = s.inputs := rfl

@[simp] theorem setLabel_regs (l : AbortLabel) : (setLabel l s).regs = s.regs := rfl
@[simp] theorem setLabel_out (l : AbortLabel) : (setLabel l s).out = s.out := rfl
@[simp] theorem setLabel_label (l : AbortLabel) : (setLabel l s).label = l := rfl
@[simp] theorem setLabel_inputs (l : AbortLabel) : (setLabel l s).inputs = s.inputs := rfl

@[simp] theorem abort_regs (l : AbortLabel) : (abort l s).regs = { s.regs with st := St.awaitHeadLow } := rfl
@[simp] theorem abort_out (l : AbortLabel) : (abort l s).out = s.out := rfl
@[simp] theorem abort_label (l : AbortLabel) : (abort l s).label = l := rfl
@[simp] theorem abort_inputs (l : AbortLabel) : (abort l s).inputs = s.inputs := rfl

@[simp] theorem publish_regs (id : Byte) : (publish id s).regs = { s.regs with latch := id } := rfl
@[simp] theorem publish_out (id : Byte) : (publish id s).out = s.out := rfl
@[simp] theorem publish_label (id : Byte) : (publish id s).label = s.label := rfl
@[simp] theorem publish_inputs (id : Byte) : (publish id s).inputs = s.inputs := rfl

@[simp] theorem clearOutputs_regs : (clearOutputs s).regs = s.regs := rfl
@[simp] theorem clearOutputs_out : (clearOutputs s).out = Outputs.quiet := rfl
@[simp] theorem clearOutputs_label : (clearOutputs s).label = .none := rfl
@[simp] theorem clearOutputs_inputs : (clearOutputs s).inputs = s.inputs := rfl

@[simp] theorem noFrame_regs : (noFrame s).regs = s.regs := rfl
@[simp] theorem noFrame_out : (noFrame s).out = { s.out with frameDone := false, frameId := 0x00#8 } := rfl
@[simp] theorem noFrame_label : (noFrame s).label = .none := rfl
@[simp] theorem noFrame_inputs : (noFrame s).inputs = s.inputs := rfl

@[simp] theorem emitFrame_regs (id : Byte) : (emitFrame id s).regs = s.regs := rfl
@[simp] theorem emitFrame_out (id : Byte) : (emitFrame id s).out = { s.out with frameDone := true, frameId := id } := rfl
@[simp] theorem emitFrame_label (id : Byte) : (emitFrame id s).label = .none := rfl
@[simp] theorem emitFrame_inputs (id : Byte) : (emitFrame id s).inputs = s.inputs := rfl

@[simp] theorem driveTakeData_regs (v : Byte) : (driveTakeData v s).regs = s.regs := rfl
@[simp] theorem driveTakeData_out (v : Byte) : (driveTakeData v s).out = { s.out with takeData := v } := rfl
@[simp] theorem driveTakeData_label (v : Byte) : (driveTakeData v s).label = s.label := rfl
@[simp] theorem driveTakeData_inputs (v : Byte) : (driveTakeData v s).inputs = s.inputs := rfl

@[simp] theorem resetStep_regs : (resetStep s).regs = resetRegs s.regs := rfl
@[simp] theorem resetStep_out : (resetStep s).out = Outputs.quiet := rfl
@[simp] theorem resetStep_label : (resetStep s).label = .none := rfl
@[simp] theorem resetStep_inputs : (resetStep s).inputs = s.inputs := rfl

@[simp] theorem consumeInput_regs : (consumeInput s).regs = s.regs := rfl
@[simp] theorem consumeInput_out : (consumeInput s).out = s.out := rfl
@[simp] theorem consumeInput_label : (consumeInput s).label = s.label := rfl
@[simp] theorem consumeInput_inputs : (consumeInput s).inputs = s.inputs.tail := rfl

@[simp] theorem deliver_regs (i : Input) : (deliver i s).regs = s.regs := rfl
@[simp] theorem deliver_out (i : Input) : (deliver i s).out = s.out := rfl
@[simp] theorem deliver_label (i : Input) : (deliver i s).label = s.label := rfl
@[simp] theorem deliver_inputs (i : Input) : (deliver i s).inputs = s.inputs ++ [i] := rfl

end Sys2Proof.Machine
end

