-- ==== Sys2Proof/Laws/Ops.lean ====
section
/-! SUPPORT. One lemma per shared operation that says everything it can do. -/

namespace Sys2Proof.Machine

/-! ### Going on -/

@[simp] theorem andThen_next {α β : Type} (a : α) (f : α → Host.Outcome β Fault Refusal) :
    andThen (.next a) f = f a := rfl

@[simp] theorem andThen_fault {α β : Type} (r : Fault) (f : α → Host.Outcome β Fault Refusal) :
    andThen (.fault r) f = .fault r := rfl

@[simp] theorem andThen_refused {α β : Type} (r : Refusal) (f : α → Host.Outcome β Fault Refusal) :
    andThen (.refused r) f = .refused r := rfl

theorem andThen_eq_next {α β : Type} {o : Host.Outcome α Fault Refusal} {f : α → Host.Outcome β Fault Refusal}
    {b : β} : andThen o f = .next b ↔ ∃ a, o = .next a ∧ f a = .next b := by
  cases o <;> simp [andThen]

/-! ### Operands -/

theorem declaredLength_toNat (hi lo : Byte) : (declaredLength hi lo).toNat = hi.toNat * 256 + lo.toNat := by
  have := lo.isLt
  rw [declaredLength, BitVec.toNat_append, Nat.shiftLeft_eq, Nat.mul_comm, ← Nat.two_pow_add_eq_or_of_lt this,
    Nat.mul_comm]

theorem lengthAccepted_iff (l : Half) : lengthAccepted l = true ↔ l.toNat ≤ Config.maxPayload := by
  simp [lengthAccepted]

/-- An accepted length loses nothing in `L[3:0]`. -/
theorem lengthCount_toNat {l : Half} (h : l.toNat ≤ Config.maxPayload) : (lengthCount l).toNat = l.toNat := by
  simp only [lengthCount, BitVec.extractLsb'_toNat, Nat.shiftRight_zero]
  exact Nat.mod_eq_of_lt (Nat.lt_of_le_of_lt h (by decide))

/-- The designated identifier always exists: index 0 is an entry of the buffer. -/
theorem designatedId_eq (r : Regs) :
    designatedId r = some (if r.len = 0#4 then 0x00#8 else Memory.cell r.payload 0) := by
  unfold designatedId memRead
  split <;> simp

theorem withCksumLow_low (h : Half) (b : Byte) : (withCksumLow h b).extractLsb' 0 8 = b :=
  BitVec.extractLsb'_append_eq_right

theorem withCksumLow_high (h : Half) (b : Byte) : (withCksumLow h b).extractLsb' 8 8 = h.extractLsb' 8 8 :=
  BitVec.extractLsb'_append_eq_left

theorem withCksumHigh_low (h : Half) (b : Byte) : (withCksumHigh h b).extractLsb' 0 8 = h.extractLsb' 0 8 :=
  BitVec.extractLsb'_append_eq_right

theorem withCksumHigh_high (h : Half) (b : Byte) : (withCksumHigh h b).extractLsb' 8 8 = b :=
  BitVec.extractLsb'_append_eq_left

/-- The two bytes of a captured checksum, each from its own write. -/
theorem cksum_both (h : Half) (lo hi : Byte) : withCksumHigh (withCksumLow h lo) hi = hi ++ lo := by
  have : BitVec.extractLsb' 0 8 (h.extractLsb' 8 8 ++ lo) = lo := BitVec.extractLsb'_append_eq_right
  rw [withCksumHigh, withCksumLow, this]

/-! ### A count that stays below another does not wrap -/

theorem count_succ_toNat {n m : Count} (h : n < m) : (n + 1#4).toNat = n.toNat + 1 := by
  have := BitVec.lt_def.1 h
  have := m.isLt
  simp only [BitVec.toNat_add]
  exact Nat.mod_eq_of_lt (by simp; omega)

/-! ### The inputs of the next step -/

@[simp] theorem nextInput_nil {s : State} (h : s.inputs = []) : nextInput s = Input.idle := by simp [nextInput, h]

theorem nextInput_cons {s : State} {i : Input} {rest : List Input} (h : s.inputs = i :: rest) :
    nextInput s = i := by simp [nextInput, h]

theorem consumeInput_cons {s : State} {i : Input} {rest : List Input} (h : s.inputs = i :: rest) :
    consumeInput s = { s with inputs := rest } := by simp [consumeInput, h]

/-! ### What a step serves -/

theorem decode_takeKey : decode takeKey = .take := by decide

theorem serveTake_eq (take : Bool) (s : State) :
    serveTake take s =
      .next (if take then setLatch Config.empty (driveTakeData s.regs.latch s) else s) := by
  unfold serveTake
  rw [decode_takeKey]
  cases take <;> rfl

/-- Everything a step can do: a reset step, or the take (which cannot stop) and then the feed. -/
theorem step_cases {s t : State} (h : step s = .next t) :
    ((nextInput s).reset = true ∧ t = resetStep (consumeInput s)) ∨
    ((nextInput s).reset = false ∧ ∃ u, serveTake (nextInput s).take (clearOutputs (consumeInput s)) = .next u ∧
      serveFeed (nextInput s).feed u = .next t) := by
  unfold step stepOn at h
  split at h
  · next hr => exact .inl ⟨hr, by simpa using h.symm⟩
  · next hr =>
    obtain ⟨u, hu, ht⟩ := andThen_eq_next.1 h
    exact .inr ⟨by simpa using hr, u, hu, ht⟩

/-- No operation touches the inputs that wait. -/
theorem exec_inputs {i : Instr} {s t : State} (h : exec i s = .next t) : t.inputs = s.inputs := by
  cases i with
  | feedLenhi b =>
    simp only [exec, execFeedLenhi] at h
    split at h <;> (cases h; rfl)
  | feedData b =>
    simp only [exec, execFeedData] at h
    split at h
    · split at h
      · cases h; rfl
      · cases h
    · cases h; rfl
  | feedTailOk =>
    simp only [exec, execFeedTailOk, designatedId_eq] at h
    cases h; rfl
  | _ => cases h; rfl

end Sys2Proof.Machine
end

