-- ==== Sys2Proof/Laws/Step.lean ====
section
/-! SUPPORT. What a step does, once: the key of a feed decodes as its code and byte, a take cannot stop, and a step
without reset is its take and then its feed's operation. -/

namespace Sys2Proof.Machine

/-! ### The key of a feed -/

theorem isTake_feedKey (c : StCode) (b : Byte) : Key.isTake (feedKey c b) = false := by
  unfold Key.isTake feedKey
  rw [BitVec.getLsbD_append, BitVec.getLsbD_append]
  simp

theorem code_feedKey (c : StCode) (b : Byte) : Key.code (feedKey c b) = c := by
  apply BitVec.eq_of_getLsbD_eq
  intro i hi
  unfold Key.code feedKey
  rw [BitVec.getLsbD_extractLsb', BitVec.getLsbD_append, BitVec.getLsbD_append]
  simp [hi]

theorem byte_feedKey (c : StCode) (b : Byte) : Key.byte (feedKey c b) = b := BitVec.extractLsb'_append_eq_right

theorem decode_feedKey (c : StCode) (b : Byte) : decode (feedKey c b) = decodeFeed c b := by
  simp [decode, isTake_feedKey, code_feedKey, byte_feedKey]

/-! ### The rows of one state -/

@[simp] theorem decodeFeed_awaitHeadLow (b : Byte) :
    decodeFeed St.awaitHeadLow b = if b = Config.headLow then .feedAhlHead else .feedAhlScan b := rfl

@[simp] theorem decodeFeed_awaitHeadHigh (b : Byte) :
    decodeFeed St.awaitHeadHigh b = if b = Config.headHigh then .feedAhhHead else if b = Config.headLow then .feedAhhRehead
      else .feedAhhResync b := rfl

@[simp] theorem decodeFeed_lengthLow (b : Byte) :
    decodeFeed St.lengthLow b = .feedLenlo b := rfl

@[simp] theorem decodeFeed_lengthHigh (b : Byte) :
    decodeFeed St.lengthHigh b = .feedLenhi b := rfl

@[simp] theorem decodeFeed_type (b : Byte) :
    decodeFeed St.type b = .feedType b := rfl

@[simp] theorem decodeFeed_command (b : Byte) :
    decodeFeed St.command b = .feedCmd b := rfl

@[simp] theorem decodeFeed_sequence (b : Byte) :
    decodeFeed St.sequence b = .feedSeq b := rfl

@[simp] theorem decodeFeed_data (b : Byte) :
    decodeFeed St.data b = .feedData b := rfl

@[simp] theorem decodeFeed_checksumLow (b : Byte) :
    decodeFeed St.checksumLow b = .feedCklo b := rfl

@[simp] theorem decodeFeed_checksumHigh (b : Byte) :
    decodeFeed St.checksumHigh b = .feedCkhi b := rfl

@[simp] theorem decodeFeed_tail (b : Byte) :
    decodeFeed St.tail b = if b = Config.tail then .feedTailOk else .feedTailBad b := rfl

@[simp] theorem decodeFeed_illegalB (b : Byte) :
    decodeFeed St.illegalB b = .feedIllegalB b := rfl

theorem decodeFeed_illegalCf (ss : BitVec 2) (b : Byte) : decodeFeed (0b11#2 ++ ss) b = .feedIllegalCf ss b := by
  have h : (0b11#2 ++ ss : StCode) ≠ St.awaitHeadLow ∧ (0b11#2 ++ ss : StCode) ≠ St.awaitHeadHigh ∧
      (0b11#2 ++ ss : StCode) ≠ St.lengthLow ∧ (0b11#2 ++ ss : StCode) ≠ St.lengthHigh ∧
      (0b11#2 ++ ss : StCode) ≠ St.type ∧ (0b11#2 ++ ss : StCode) ≠ St.command ∧
      (0b11#2 ++ ss : StCode) ≠ St.sequence ∧ (0b11#2 ++ ss : StCode) ≠ St.data ∧
      (0b11#2 ++ ss : StCode) ≠ St.checksumLow ∧ (0b11#2 ++ ss : StCode) ≠ St.checksumHigh ∧
      (0b11#2 ++ ss : StCode) ≠ St.tail ∧ (0b11#2 ++ ss : StCode) ≠ St.illegalB ∧
      (0b11#2 ++ ss : StCode).extractLsb' 0 2 = ss := by revert ss; decide
  obtain ⟨h0, h1, h2, h3, h4, h5, h6, h7, h8, h9, hA, hB, hs⟩ := h
  rw [decodeFeed, if_neg h0, if_neg h1, if_neg h2, if_neg h3, if_neg h4, if_neg h5, if_neg h6, if_neg h7, if_neg h8,
    if_neg h9, if_neg hA, if_neg hB, hs]

/-- A state code is one of the 11 states, 0xB, or one of 0xC..0xF. -/
theorem stCode_cases (c : StCode) :
    c = St.awaitHeadLow ∨ c = St.awaitHeadHigh ∨ c = St.lengthLow ∨ c = St.lengthHigh ∨ c = St.type ∨
    c = St.command ∨ c = St.sequence ∨ c = St.data ∨ c = St.checksumLow ∨ c = St.checksumHigh ∨ c = St.tail ∨
    c = St.illegalB ∨ ∃ ss : BitVec 2, c = 0b11#2 ++ ss := by revert c; decide

/-! ### The step -/

/-- The state in which the feed of a step without reset acts: outputs cleared, input consumed, take served. -/
def afterTake (s : State) : State :=
  if (nextInput s).take then setLatch Config.empty (driveTakeData s.regs.latch (clearOutputs (consumeInput s)))
  else clearOutputs (consumeInput s)

@[simp] theorem afterTake_regs (s : State) :
    (afterTake s).regs = { s.regs with latch := if (nextInput s).take then 0x00#8 else s.regs.latch } := by
  unfold afterTake; split <;> simp

@[simp] theorem afterTake_out (s : State) :
    (afterTake s).out = { Outputs.quiet with takeData := if (nextInput s).take then s.regs.latch else 0x00#8 } := by
  unfold afterTake; split <;> simp [Outputs.quiet]

@[simp] theorem afterTake_inputs (s : State) : (afterTake s).inputs = s.inputs.tail := by
  unfold afterTake; split <;> simp

theorem step_of_reset {s : State} (h : (nextInput s).reset = true) : step s = .next (resetStep (consumeInput s)) := by
  simp [step, stepOn, h]

theorem step_of_noReset {s : State} (h : (nextInput s).reset = false) :
    step s = serveFeed (nextInput s).feed (afterTake s) := by
  simp only [step, stepOn, h, serveEvents, serveTake_eq, andThen_next, afterTake]
  rfl

/-- A feed runs the operation that its state's code and its byte decode to; the take of its step does not change which. -/
theorem serveFeed_afterTake (s : State) (b : Byte) :
    serveFeed (some b) (afterTake s) = exec (decodeFeed s.regs.st b) (afterTake s) := by
  rw [← decode_feedKey]
  show exec (decode (feedKey (afterTake s).regs.st b)) (afterTake s) = _
  rw [afterTake_regs]

end Sys2Proof.Machine
end

