-- ==== Sys2Proof/Laws/Exec.lean ====
section
/-! SUPPORT. What the feed of a step can do, said once: if the operation that a state code and a byte select answers a
next state, that state is one of the named cases below (40_frame_decoder.md R81 to R96). -/

namespace Sys2Proof.Machine

/-- The effect of feeding b with the code c in `st`, from registers r and outputs o, to registers and outputs. -/
inductive FeedEffect (b : Byte) (r : Regs) (o : Outputs) : StCode → Regs → Outputs → Prop
  | headLow : b = Config.headLow →
      FeedEffect b r o St.awaitHeadLow { r with st := St.awaitHeadHigh } o.withoutFrame
  | scan : b ≠ Config.headLow →
      FeedEffect b r o St.awaitHeadLow { r with st := St.awaitHeadLow } o.withoutFrame
  | headHigh : b = Config.headHigh →
      FeedEffect b r o St.awaitHeadHigh { r with rc := 0#4, st := St.lengthLow } o.withoutFrame
  | rehead : b = Config.headLow →
      FeedEffect b r o St.awaitHeadHigh { r with st := St.awaitHeadHigh } o.withoutFrame
  | resync : b ≠ Config.headHigh → b ≠ Config.headLow →
      FeedEffect b r o St.awaitHeadHigh { r with st := St.awaitHeadLow } o.withoutFrame
  | lenLo : FeedEffect b r o St.lengthLow { r with lenLo := b, st := St.lengthHigh } o.withoutFrame
  | lenAccepted : (declaredLength b r.lenLo).toNat ≤ Config.maxPayload →
      FeedEffect b r o St.lengthHigh { r with len := lengthCount (declaredLength b r.lenLo), st := St.type }
        o.withoutFrame
  | lenRejected : Config.maxPayload < (declaredLength b r.lenLo).toNat →
      FeedEffect b r o St.lengthHigh { r with st := St.awaitHeadLow } o.withoutFrame
  | type : FeedEffect b r o St.type { r with st := St.command } o.withoutFrame
  | command : FeedEffect b r o St.command { r with st := St.sequence } o.withoutFrame
  | sequenceData : 0#4 < r.len → FeedEffect b r o St.sequence { r with st := St.data } o.withoutFrame
  | sequenceEmpty : r.len = 0#4 → FeedEffect b r o St.sequence { r with st := St.checksumLow } o.withoutFrame
  | dataStored : r.rc < r.len → r.rc.toNat < Config.maxPayload →
      FeedEffect b r o St.data
        { r with
            payload := Memory.setCell r.payload r.rc.toNat b, rc := r.rc + 1#4,
            st := if r.rc + 1#4 = r.len then St.checksumLow else St.data }
        o.withoutFrame
  | dataDone : r.len ≤ r.rc → FeedEffect b r o St.data { r with st := St.checksumLow } o.withoutFrame
  | cksumLow :
      FeedEffect b r o St.checksumLow { r with cksum := withCksumLow r.cksum b, st := St.checksumHigh } o.withoutFrame
  | cksumHigh :
      FeedEffect b r o St.checksumHigh { r with cksum := withCksumHigh r.cksum b, st := St.tail } o.withoutFrame
  | publishes (id : Byte) : b = Config.tail → id = (if r.len = 0#4 then 0x00#8 else Memory.cell r.payload 0) →
      FeedEffect b r o St.tail { r with latch := id, st := St.awaitHeadLow } { o with frameDone := true, frameId := id }
  | tailBad : b ≠ Config.tail → FeedEffect b r o St.tail { r with st := St.awaitHeadLow } o.withoutFrame
  | illegal (c : StCode) : St.tail < c → FeedEffect b r o c { r with st := St.awaitHeadLow } o.withoutFrame

/-- Everything the operation of a feed can do when it answers a next state. -/
theorem feedEffect_of_exec {c : StCode} {b : Byte} {u t : State} (h : exec (decodeFeed c b) u = .next t) :
    FeedEffect b u.regs u.out c t.regs t.out := by
  rcases stCode_cases c with hc|hc|hc|hc|hc|hc|hc|hc|hc|hc|hc|hc|⟨ss, hc⟩ <;> subst hc
  · by_cases hb : b = Config.headLow
    · rw [decodeFeed_awaitHeadLow, if_pos hb] at h; cases h; exact .headLow hb
    · rw [decodeFeed_awaitHeadLow, if_neg hb] at h; cases h; exact .scan hb
  · by_cases hb : b = Config.headHigh
    · rw [decodeFeed_awaitHeadHigh, if_pos hb] at h; cases h; exact .headHigh hb
    · by_cases hb' : b = Config.headLow
      · rw [decodeFeed_awaitHeadHigh, if_neg hb, if_pos hb'] at h; cases h; exact .rehead hb'
      · rw [decodeFeed_awaitHeadHigh, if_neg hb, if_neg hb'] at h; cases h; exact .resync hb hb'
  · cases h; exact .lenLo
  · simp only [decodeFeed_lengthHigh, exec, execFeedLenhi] at h
    split at h
    · next hl => cases h; exact .lenAccepted ((lengthAccepted_iff _).1 hl)
    · next hl => cases h; exact .lenRejected (Nat.lt_of_not_le (mt (lengthAccepted_iff _).2 hl))
  · cases h; exact .type
  · cases h; exact .command
  · simp only [decodeFeed_sequence, exec, execFeedSeq] at h
    cases h
    by_cases hl : u.regs.len > 0#4
    · rw [if_pos hl]; exact .sequenceData hl
    · rw [if_neg hl]
      exact .sequenceEmpty (BitVec.eq_of_toNat_eq (Nat.eq_zero_of_not_pos hl))
  · simp only [decodeFeed_data, exec, execFeedData] at h
    split at h
    · next hl =>
      split at h
      · next hm => obtain ⟨h8, rfl⟩ := memWrite_eq_some.1 hm; cases h; exact .dataStored hl h8
      · cases h
    · next hl => cases h; exact .dataDone (BitVec.not_lt.1 hl)
  · cases h; exact .cksumLow
  · cases h; exact .cksumHigh
  · by_cases hb : b = Config.tail
    · rw [decodeFeed_tail, if_pos hb] at h
      simp only [exec, execFeedTailOk, designatedId_eq] at h
      cases h; exact .publishes _ hb rfl
    · rw [decodeFeed_tail, if_neg hb] at h; cases h; exact .tailBad hb
  · cases h; exact .illegal _ (by decide)
  · rw [decodeFeed_illegalCf] at h; cases h
    exact .illegal _ (by revert ss; decide)

/-- Everything a step can do when it answers a next state: a reset step, a step without a feed, or its feed's effect
after its take. -/
theorem step_effect {s t : State} (h : step s = .next t) :
    ((nextInput s).reset = true ∧ t = resetStep (consumeInput s)) ∨
    ((nextInput s).reset = false ∧ (nextInput s).feed = none ∧ t = afterTake s) ∨
    ∃ b, (nextInput s).reset = false ∧ (nextInput s).feed = some b ∧ t.inputs = s.inputs.tail ∧
      FeedEffect b (afterTake s).regs (afterTake s).out s.regs.st t.regs t.out := by
  by_cases hr : (nextInput s).reset = true
  · rw [step_of_reset hr] at h; cases h; exact .inl ⟨hr, rfl⟩
  · have hr : (nextInput s).reset = false := by simpa using hr
    rw [step_of_noReset hr] at h
    cases hf : (nextInput s).feed with
    | none => rw [hf] at h; cases h; exact .inr (.inl ⟨hr, rfl, rfl⟩)
    | some b =>
      rw [hf, serveFeed_afterTake] at h
      exact .inr (.inr ⟨b, hr, rfl, by rw [exec_inputs h, afterTake_inputs], feedEffect_of_exec h⟩)

/-! ### What has been fed -/

theorem fedAfter_reset {f : Fed} {s : State} (h : (nextInput s).reset = true) : fedAfter f s = Fed.nothing := by
  simp [fedAfter, h]

theorem fedAfter_noFeed {f : Fed} {s : State} (hr : (nextInput s).reset = false) (hf : (nextInput s).feed = none) :
    fedAfter f s = f := by simp [fedAfter, hr, hf]

/-- A feed adds its byte; only a step that executes `FEED.AHH.HEAD` moves the attempt's start. -/
theorem fedAfter_feed {f : Fed} {s : State} {b : Byte} (hr : (nextInput s).reset = false)
    (hf : (nextInput s).feed = some b) :
    fedAfter f s =
      { bytes := f.bytes ++ [b],
        start := if decodeFeed s.regs.st b = .feedAhhHead then f.bytes.length - 1 else f.start } := by
  simp only [fedAfter, hr, hf, decode_feedKey]; rfl

/-- An attempt that has begun grows by the byte fed while its start stays. -/
theorem attempt_snoc {f : Fed} {b : Byte} (h : f.attempt ≠ []) :
    Fed.attempt { bytes := f.bytes ++ [b], start := f.start } = f.attempt ++ [b] := by
  unfold Fed.attempt at *
  have : f.start < f.bytes.length := by simpa using h
  exact List.drop_append_of_le_length this.le

/-- An attempt is the end of what has been fed. -/
theorem attempt_suffix (f : Fed) : f.attempt <:+ f.bytes := List.drop_suffix _ _

end Sys2Proof.Machine
end

