-- ==== Sys2Proof/Laws/PerInstr.lean ====
section
/-! SUPPORT. A statement about every operation as syntax, one lemma per constructor: the key of a well-formed operation
matches its own row of 30_encoding.md R67, the except list included. -/

namespace Sys2Proof

/-- A mask of `K[12:8]` drops the byte of a FEED key. -/
theorem feedKey_and_codeMask (c : StCode) (b : Byte) : feedKey c b &&& 0x1F00#13 = feedKey c 0#8 := by
  unfold feedKey
  rw [show (0x1F00#13) = (0b11111#5 ++ 0#8 : BitVec 13) from rfl, BitVec.and_append]
  congr 1
  · exact BitVec.and_allOnes
  · simp

/-- A mask of `K[12:10]` drops the byte and the two low state bits of a FEED key. -/
theorem feedKey_and_cfMask (ss : BitVec 2) (b : Byte) : feedKey (0b11#2 ++ ss) b &&& 0x1C00#13 = 0x0C00#13 := by
  have h : (0x1C00#13) = 0x1F00#13 &&& 0x1C00#13 := rfl
  rw [h, ← BitVec.and_assoc, feedKey_and_codeMask]
  revert ss
  decide

/-- FEED keys of one state are told apart by their bytes. -/
theorem feedKey_byte_inj {c : StCode} {a b : Byte} (h : feedKey c a = feedKey c b) : a = b := by
  have := congrArg (BitVec.extractLsb' 0 8) h
  unfold feedKey at this
  rwa [BitVec.extractLsb'_append_eq_right, BitVec.extractLsb'_append_eq_right] at this

namespace Laws.EncodeHitsRow

/-- The encoder's key matches the operation's own row. -/
def Statement (i : Instr) : Prop := i.WellFormed → i.row.hits (encode i) = true

theorem hits_of {r : Row} {k : Key} (h : k &&& r.mask = r.value) (he : k ∉ r.except) : r.hits k = true := by
  simp [Row.hits, h, he]

theorem feedAhlHead : Statement .feedAhlHead := fun _ => by decide

theorem feedAhlScan (b : Byte) : Statement (.feedAhlScan b) := fun h => by
  refine hits_of (feedKey_and_codeMask 0x0#4 b) fun he => ?_
  have hb : feedKey 0x0#4 b = feedKey 0x0#4 Config.headLow := List.mem_singleton.1 he
  exact absurd (feedKey_byte_inj hb ▸ h) (by decide)

theorem feedAhhHead : Statement .feedAhhHead := fun _ => by decide

theorem feedAhhRehead : Statement .feedAhhRehead := fun _ => by decide

theorem feedAhhResync (b : Byte) : Statement (.feedAhhResync b) := fun h => by
  refine hits_of (feedKey_and_codeMask 0x1#4 b) fun he => ?_
  rcases List.mem_cons.1 he with he | he
  · have hb : feedKey 0x1#4 b = feedKey 0x1#4 Config.headLow := he
    exact absurd (feedKey_byte_inj hb ▸ h) (by decide)
  · have hb : feedKey 0x1#4 b = feedKey 0x1#4 Config.headHigh := List.mem_singleton.1 he
    exact absurd (feedKey_byte_inj hb ▸ h) (by decide)

theorem feedLenlo (b : Byte) : Statement (.feedLenlo b) :=
  fun _ => hits_of (feedKey_and_codeMask 0x2#4 b) List.not_mem_nil

theorem feedLenhi (b : Byte) : Statement (.feedLenhi b) :=
  fun _ => hits_of (feedKey_and_codeMask 0x3#4 b) List.not_mem_nil

theorem feedType (b : Byte) : Statement (.feedType b) :=
  fun _ => hits_of (feedKey_and_codeMask 0x4#4 b) List.not_mem_nil

theorem feedCmd (b : Byte) : Statement (.feedCmd b) :=
  fun _ => hits_of (feedKey_and_codeMask 0x5#4 b) List.not_mem_nil

theorem feedSeq (b : Byte) : Statement (.feedSeq b) :=
  fun _ => hits_of (feedKey_and_codeMask 0x6#4 b) List.not_mem_nil

theorem feedData (b : Byte) : Statement (.feedData b) :=
  fun _ => hits_of (feedKey_and_codeMask 0x7#4 b) List.not_mem_nil

theorem feedCklo (b : Byte) : Statement (.feedCklo b) :=
  fun _ => hits_of (feedKey_and_codeMask 0x8#4 b) List.not_mem_nil

theorem feedCkhi (b : Byte) : Statement (.feedCkhi b) :=
  fun _ => hits_of (feedKey_and_codeMask 0x9#4 b) List.not_mem_nil

theorem feedTailOk : Statement .feedTailOk := fun _ => by decide

theorem feedTailBad (b : Byte) : Statement (.feedTailBad b) := fun h => by
  refine hits_of (feedKey_and_codeMask 0xA#4 b) fun he => ?_
  have hb : feedKey 0xA#4 b = feedKey 0xA#4 Config.tail := List.mem_singleton.1 he
  exact absurd (feedKey_byte_inj hb ▸ h) (by decide)

theorem feedIllegalB (b : Byte) : Statement (.feedIllegalB b) :=
  fun _ => hits_of (feedKey_and_codeMask 0xB#4 b) List.not_mem_nil

theorem feedIllegalCf (ss : BitVec 2) (b : Byte) : Statement (.feedIllegalCf ss b) :=
  fun _ => hits_of (feedKey_and_cfMask ss b) List.not_mem_nil

theorem take : Statement .take := fun _ => by decide

end Laws.EncodeHitsRow

end Sys2Proof
end

