-- ==== Sys2Proof/Tests/Slice0.lean ====
section
/-! SUPPORT. Tests of the model, each expected value from a vector of spec/95_test_vectors.md (named in the docstring) or
written out from the opcode table, and the witnesses that meet the hypotheses of the obligations. -/

namespace Sys2Proof.Tests

open Sys2Proof.Machine

/-! ### Helpers -/

/-- Registers with the given values, the others as after reset. -/
def regsWith (st : StCode) (len : Count := 0) (rc : Count := 0) (lenLo : Byte := 0) (cksum : Half := 0)
    (payload : Memory := []) (latch : Byte := 0) : Regs :=
  { st := st, lenLo := lenLo, len := len, rc := rc, cksum := cksum, payload := payload, latch := latch }

/-- A state with these registers and pending inputs. -/
def stateWith (r : Regs) (inputs : List Input := []) : State := { State.reset with regs := r, inputs := inputs }

def regsOf : Host.Outcome State Fault Refusal → Option Regs
  | .next t => some t.regs
  | .fault _ => none
  | .refused _ => none

def outOf : Host.Outcome State Fault Refusal → Option Outputs
  | .next t => some t.out
  | .fault _ => none
  | .refused _ => none

/-- One step on a pending input. -/
def stepIn (r : Regs) (i : Input) : Host.Outcome State Fault Refusal := step (stateWith r [i])

/-! ### Well-formedness: each check refuses an ill-formed term -/

theorem test_wellFormed_scan_refuses_headLow : ¬ (Instr.feedAhlScan 0xF4#8).WellFormed := by decide
theorem test_wellFormed_scan_accepts : (Instr.feedAhlScan 0xF5#8).WellFormed := by decide
theorem test_wellFormed_resync_refuses_headLow : ¬ (Instr.feedAhhResync 0xF4#8).WellFormed := by decide
theorem test_wellFormed_resync_refuses_headHigh : ¬ (Instr.feedAhhResync 0xF5#8).WellFormed := by decide
theorem test_wellFormed_tailBad_refuses_tail : ¬ (Instr.feedTailBad 0xFB#8).WellFormed := by decide

/-! ### Decoding: keys written from the "encoding" column of the opcode table, one per row -/

theorem test_decode_feedAhlHead : decode 0b0_0000_11110100#13 = .feedAhlHead := by decide
theorem test_decode_feedAhlScan : decode 0b0_0000_11111011#13 = .feedAhlScan 0xFB#8 := by decide
theorem test_decode_feedAhhHead : decode 0b0_0001_11110101#13 = .feedAhhHead := by decide
theorem test_decode_feedAhhRehead : decode 0b0_0001_11110100#13 = .feedAhhRehead := by decide
theorem test_decode_feedAhhResync : decode 0b0_0001_00010010#13 = .feedAhhResync 0x12#8 := by decide
theorem test_decode_feedLenlo : decode 0b0_0010_11110100#13 = .feedLenlo 0xF4#8 := by decide
theorem test_decode_feedLenhi : decode 0b0_0011_00000001#13 = .feedLenhi 0x01#8 := by decide
theorem test_decode_feedType : decode 0b0_0100_11111011#13 = .feedType 0xFB#8 := by decide
theorem test_decode_feedCmd : decode 0b0_0101_00000101#13 = .feedCmd 0x05#8 := by decide
theorem test_decode_feedSeq : decode 0b0_0110_11110100#13 = .feedSeq 0xF4#8 := by decide
theorem test_decode_feedData : decode 0b0_0111_10101010#13 = .feedData 0xAA#8 := by decide
theorem test_decode_feedCklo : decode 0b0_1000_01011010#13 = .feedCklo 0x5A#8 := by decide
theorem test_decode_feedCkhi : decode 0b0_1001_10100101#13 = .feedCkhi 0xA5#8 := by decide
theorem test_decode_feedTailOk : decode 0b0_1010_11111011#13 = .feedTailOk := by decide
theorem test_decode_feedTailBad : decode 0b0_1010_11110100#13 = .feedTailBad 0xF4#8 := by decide
theorem test_decode_feedIllegalB : decode 0b0_1011_00000000#13 = .feedIllegalB 0x00#8 := by decide
theorem test_decode_feedIllegalCf : decode 0b0_1101_11110100#13 = .feedIllegalCf 0b01#2 0xF4#8 := by decide
theorem test_decode_take : decode 0b1_0000_00000000#13 = .take := by decide
/-- TAKE's low 12 bits are don't-care bits. -/
theorem test_decode_take_dontcare : decode 0b1_0111_10101010#13 = .take := by decide
theorem test_decodeTableWord : decodeTableWord 16 0x0AFB = some .feedTailOk := by decide
/-- A word with a bit above bit 12 is no key. -/
theorem test_decodeTableWord_wide : decodeTableWord 16 0x2000 = none := by decide
theorem test_opcodeTable_length : opcodeTable.length = 18 := by decide

/-! ### Meanings -/

/-- HS1. -/
theorem test_HS1 : regsOf (exec .feedAhlHead (stateWith (regsWith St.awaitHeadLow (rc := 5)))) =
    some (regsWith St.awaitHeadHigh (rc := 5)) := by decide
/-- HS3. -/
theorem test_HS3 : regsOf (exec (.feedAhlScan 0xFB#8) (stateWith (regsWith St.awaitHeadLow))) =
    some (regsWith St.awaitHeadLow) := by decide
/-- HS5. -/
theorem test_HS5 : regsOf (exec .feedAhhHead (stateWith (regsWith St.awaitHeadHigh (rc := 5)))) =
    some (regsWith St.lengthLow (rc := 0)) := by decide
/-- HS6. -/
theorem test_HS6 : regsOf (exec .feedAhhRehead (stateWith (regsWith St.awaitHeadHigh))) =
    some (regsWith St.awaitHeadHigh) := by decide
/-- HS7. -/
theorem test_HS7 : regsOf (exec (.feedAhhResync 0x12#8) (stateWith (regsWith St.awaitHeadHigh (rc := 5)))) =
    some (regsWith St.awaitHeadLow (rc := 5)) := by decide
/-- LN2. -/
theorem test_LN2 : regsOf (exec (.feedLenlo 0xF4#8) (stateWith (regsWith St.lengthLow (len := 3)))) =
    some (regsWith St.lengthHigh (len := 3) (lenLo := 0xF4)) := by decide
/-- LN3. -/
theorem test_LN3 : regsOf (exec (.feedLenhi 0x00#8) (stateWith (regsWith St.lengthHigh (len := 3) (lenLo := 0x08)))) =
    some (regsWith St.type (len := 8) (lenLo := 0x08)) := by decide
/-- LN6: L = 256. -/
theorem test_LN6 : regsOf (exec (.feedLenhi 0x01#8) (stateWith (regsWith St.lengthHigh (len := 2) (lenLo := 0x00)))) =
    some (regsWith St.awaitHeadLow (len := 2) (lenLo := 0x00)) := by decide
/-- HD1. -/
theorem test_HD1 : regsOf (exec (.feedType 0xFB#8) (stateWith (regsWith St.type (len := 2)))) =
    some (regsWith St.command (len := 2)) := by decide
/-- HD2. -/
theorem test_HD2 : regsOf (exec (.feedCmd 0x05#8) (stateWith (regsWith St.command (latch := 7)))) =
    some (regsWith St.sequence (latch := 7)) := by decide
/-- HD4. -/
theorem test_HD4 : regsOf (exec (.feedSeq 0x00#8) (stateWith (regsWith St.sequence (len := 0)))) =
    some (regsWith St.checksumLow (len := 0)) := by decide
/-- HD5. -/
theorem test_HD5 : regsOf (exec (.feedSeq 0xF4#8) (stateWith (regsWith St.sequence (len := 8)))) =
    some (regsWith St.data (len := 8)) := by decide
/-- PL4. -/
theorem test_PL4 : regsOf (exec (.feedData 0xD7#8) (stateWith (regsWith St.data (len := 8) (rc := 7)
      (payload := [(0, 0xD0#8), (6, 0xD6#8)])))) =
    some (regsWith St.checksumLow (len := 8) (rc := 8)
      (payload := [(0, 0xD0#8), (6, 0xD6#8), (7, 0xD7#8)])) := by decide
/-- PL7: no write. -/
theorem test_PL7 : regsOf (exec (.feedData 0x55#8) (stateWith (regsWith St.data (len := 2) (rc := 2)))) =
    some (regsWith St.checksumLow (len := 2) (rc := 2)) := by decide
/-- CK1. -/
theorem test_CK1 : regsOf (exec (.feedCklo 0x5A#8) (stateWith (regsWith St.checksumLow (cksum := 0x1234)))) =
    some (regsWith St.checksumHigh (cksum := 0x125A)) := by decide
/-- CK2. -/
theorem test_CK2 : regsOf (exec (.feedCkhi 0xA5#8) (stateWith (regsWith St.checksumHigh (cksum := 0x125A)))) =
    some (regsWith St.tail (cksum := 0xA55A)) := by decide
/-- CK3. -/
theorem test_CK3 : regsOf (exec .feedTailOk (stateWith (regsWith St.tail (len := 2) (payload := [(0, 0xAA#8)])))) =
    some (regsWith St.awaitHeadLow (len := 2) (payload := [(0, 0xAA#8)]) (latch := 0xAA)) := by decide
/-- CK4: an empty frame publishes 0 though payload[0] holds 07, and says so at the ports. -/
theorem test_CK4 : outOf (stepIn (regsWith St.tail (payload := [(0, 0x07#8)]) (latch := 5)) (Input.ofByte 0xFB)) =
    some { frameDone := true, frameId := 0x00, takeData := 0x00 } := by decide
/-- CK7. -/
theorem test_CK7 : regsOf (exec (.feedTailBad 0xF4#8) (stateWith (regsWith St.tail (latch := 5)))) =
    some (regsWith St.awaitHeadLow (latch := 5)) := by decide
/-- IL1. -/
theorem test_IL1 : regsOf (stepIn (regsWith 0xB#4) (Input.ofByte 0x00)) = some (regsWith St.awaitHeadLow) := by decide
/-- IL2. -/
theorem test_IL2 : regsOf (stepIn (regsWith 0xF#4) (Input.ofByte 0xF4)) = some (regsWith St.awaitHeadLow) := by decide
/-- LT1: the port. -/
theorem test_LT1 : outOf (stepIn (regsWith St.awaitHeadLow (latch := 0xAA)) Input.ofTake) =
    some { frameDone := false, frameId := 0x00, takeData := 0xAA } := by decide
/-- LT5: the registers. -/
theorem test_LT5 : regsOf (exec .take (stateWith (regsWith St.lengthLow (latch := 7)))) =
    some (regsWith St.lengthLow (latch := 0)) := by decide

/-! ### Steps -/

/-- LT3: the registers of a take and a good tail in one step. -/
theorem test_LT3_regs : regsOf (stepIn (regsWith St.tail (len := 1) (payload := [(0, 0x06#8)]) (latch := 5))
      (Input.ofByteAndTake 0xFB)) =
    some (regsWith St.awaitHeadLow (len := 1) (payload := [(0, 0x06#8)]) (latch := 6)) := by decide
/-- LT3: its ports. -/
theorem test_LT3_out : outOf (stepIn (regsWith St.tail (len := 1) (payload := [(0, 0x06#8)]) (latch := 5))
      (Input.ofByteAndTake 0xFB)) = some { frameDone := true, frameId := 0x06, takeData := 0x05 } := by decide
/-- LT4. -/
theorem test_LT4 : regsOf (stepIn (regsWith St.data (len := 2) (latch := 5)) (Input.ofByteAndTake 0xAA)) =
    some (regsWith St.data (len := 2) (rc := 1) (payload := [(0, 0xAA#8)]) (latch := 0)) := by decide
/-- RS1: the payload is not written. -/
theorem test_RS1 : regsOf (stepIn (regsWith St.data (len := 3) (rc := 1) (lenLo := 3) (cksum := 0x1234)
      (payload := [(0, 0x11#8)]) (latch := 7)) Input.ofReset) =
    some (regsWith St.awaitHeadLow (payload := [(0, 0x11#8)])) := by decide
/-- RS2: reset wins over a good tail and a take in the same step. -/
theorem test_RS2 : outOf (stepIn (regsWith St.tail (len := 1) (payload := [(0, 0x06#8)]) (latch := 5))
      { reset := true, feed := some 0xFB, take := true }) =
    some { frameDone := false, frameId := 0x00, takeData := 0x00 } := by decide
/-- RS3, one step. -/
theorem test_RS3 : regsOf (stepIn (regsWith St.data (len := 3) (rc := 1)) Input.idle) =
    some (regsWith St.data (len := 3) (rc := 1)) := by decide
/-- 30_encoding.md R72: its first example. -/
theorem test_frameBytes : frameBytes 0x00 0x05 0x00 [0xAA, 0xBB] 0x0000 =
    [0xF4, 0xF5, 0x02, 0x00, 0x00, 0x05, 0x00, 0xAA, 0xBB, 0x00, 0x00, 0xFB] := by decide
/-- 10_state.md R35: `rx_data` counts only while `rx_valid` is 1. -/
theorem test_inputOfPorts : inputOfPorts false false 0xF4 true = Input.ofTake ∧
    inputOfPorts false true 0xF4 false = Input.ofByte 0xF4 := by decide
/-- 10_state.md R20: each agent only adds an input, in arrival order. -/
theorem test_agents : (resetAsserted (bothArrive 0xFB (consumerAsks (byteSourceSends 0xF4 State.reset)))).inputs =
    [Input.ofByte 0xF4, Input.ofTake, Input.ofByteAndTake 0xFB, Input.ofReset] := by decide
/-- 10_state.md R31: pending is latch != 0. -/
theorem test_pending : pending (regsWith St.awaitHeadLow (latch := 5)) = true ∧
    pending (regsWith St.awaitHeadLow) = false := by decide

/-- 40_frame_decoder.md R98, R141: bytes are kept as they were fed, an attempt starts at the byte before the head-high
byte, and a reset discards what was fed. -/
theorem test_fedAfter :
    fedAfter { bytes := [0x11, 0xF4], start := 0 } (stateWith (regsWith St.awaitHeadHigh) [Input.ofByte 0xF5]) =
      { bytes := [0x11, 0xF4, 0xF5], start := 1 } ∧
    fedAfter { bytes := [0xF4, 0xF5], start := 0 } (stateWith (regsWith St.lengthLow) [Input.ofReset]) =
      Fed.nothing := by decide

/-! ### Witnesses: a concrete state and operands that meet the hypotheses of each obligation that has any -/

theorem witness_DecodeOfEncode : (Instr.feedAhhResync 0x12#8).WellFormed := by decide

theorem witness_StepRunsDecodedOperations_feed :
    let s := stateWith (regsWith St.data (len := 2)) [Input.ofByte 0xAA]
    s.inputs = Input.ofByte 0xAA :: [] ∧ (Input.ofByte 0xAA).reset = false ∧
    (Input.ofByte 0xAA).feed = some 0xAA ∧ (Input.ofByte 0xAA).take = false ∧
    decode (feedKey s.regs.st 0xAA) = .feedData 0xAA := by decide

theorem witness_StepRunsDecodedOperations_take :
    let s := stateWith (regsWith St.awaitHeadLow (latch := 5)) [Input.ofTake]
    s.inputs = Input.ofTake :: [] ∧ Input.ofTake.reset = false ∧ Input.ofTake.feed = none ∧
    Input.ofTake.take = true := by decide

theorem witness_StepRunsDecodedOperations_both :
    let s := stateWith (regsWith St.tail (latch := 5)) [Input.ofByteAndTake 0xFB]
    s.inputs = Input.ofByteAndTake 0xFB :: [] ∧ (Input.ofByteAndTake 0xFB).reset = false ∧
    (Input.ofByteAndTake 0xFB).feed = some 0xFB ∧ (Input.ofByteAndTake 0xFB).take = true ∧
    decode (feedKey s.regs.st 0xFB) = .feedTailOk := by decide

theorem witness_StepRunsDecodedOperations_idle :
    let s := stateWith (regsWith St.data) [Input.idle]
    s.inputs = Input.idle :: [] ∧ Input.idle.reset = false ∧ Input.idle.feed = none ∧ Input.idle.take = false := by
  decide

theorem witness_PlacedKeyIsTheNextOperation : 13 ≤ 13 ∧ 13 ≤ 16 := by decide

theorem witness_OtherByteWhileScanning :
    (0xF5#8 : Byte) ≠ Config.headLow ∧ (stateWith (regsWith St.awaitHeadLow)).regs.st = St.awaitHeadLow := by decide

theorem witness_BadHeadHighResynchronizes :
    (0xF6#8 : Byte) ≠ Config.headLow ∧ (0xF6#8 : Byte) ≠ Config.headHigh := by decide

/-- The largest accepted length. -/
theorem witness_LengthHighAcceptsUpToEight_accepted :
    (0x00#8 : Byte).toNat * 256 + (stateWith (regsWith St.lengthHigh (lenLo := 0x08))).regs.lenLo.toNat ≤ 8 := by
  decide

/-- The smallest rejected length. -/
theorem witness_LengthHighAcceptsUpToEight_rejected :
    8 < (0x00#8 : Byte).toNat * 256 + (stateWith (regsWith St.lengthHigh (lenLo := 0x09))).regs.lenLo.toNat := by
  decide

theorem witness_SeqSelectsDataOrChecksum_data : 0 < (stateWith (regsWith St.sequence (len := 1))).regs.len.toNat := by
  decide

theorem witness_SeqSelectsDataOrChecksum_empty : (stateWith (regsWith St.sequence (len := 0))).regs.len.toNat = 0 := by
  decide

/-- The last entry of the buffer. -/
theorem witness_DataByteIsStoredAtRc_stored :
    let s := stateWith (regsWith St.data (len := 8) (rc := 7))
    s.regs.rc.toNat < s.regs.len.toNat ∧ s.regs.rc.toNat < 8 := by decide

theorem witness_DataByteIsStoredAtRc_done :
    let s := stateWith (regsWith St.data (len := 2) (rc := 2))
    s.regs.len.toNat ≤ s.regs.rc.toNat := by decide

theorem witness_DataOutsideBufferFaults :
    let s := stateWith (regsWith St.data (len := 9) (rc := 8))
    s.regs.rc.toNat < s.regs.len.toNat ∧ 8 ≤ s.regs.rc.toNat := by decide

theorem witness_GoodTailPublishes :
    let s := stateWith (regsWith St.tail (len := 1) (payload := [(0, 0x06#8)]))
    0x06#8 = (if s.regs.len.toNat = 0 then 0x00#8 else Memory.cell s.regs.payload 0) := by decide

theorem witness_GoodTailPublishes_empty :
    let s := stateWith (regsWith St.tail (len := 0) (payload := [(0, 0x06#8)]))
    0x00#8 = (if s.regs.len.toNat = 0 then 0x00#8 else Memory.cell s.regs.payload 0) := by decide

theorem witness_BadTailDropsFrame : (0xF4#8 : Byte) ≠ Config.tail := by decide

theorem witness_TakeIsOrderedBeforePublish :
    let s := stateWith (regsWith St.tail (len := 1) (payload := [(0, 0x06#8)]) (latch := 5)) [Input.ofByteAndTake 0xFB]
    s.inputs = Input.ofByteAndTake 0xFB :: [] ∧
    ∃ u, step { s with inputs := Input.ofByte 0xFB :: [] } = .next u ∧ u.out.frameDone = true :=
  ⟨rfl, _, rfl, rfl⟩

theorem witness_TakeIsOrderedBeforePublish_noPublish :
    let s := stateWith (regsWith St.data (len := 2) (latch := 5)) [Input.ofByteAndTake 0xAA]
    s.inputs = Input.ofByteAndTake 0xAA :: [] ∧
    ∃ u, step { s with inputs := Input.ofByte 0xAA :: [] } = .next u ∧ u.out.frameDone = false :=
  ⟨rfl, _, rfl, rfl⟩

theorem witness_PublishFirstOrderBypasses :
    let s := stateWith (regsWith St.tail (len := 1) (payload := [(0, 0x06#8)]) (latch := 5))
    s.regs.st = St.tail ∧ 0x06#8 = (if s.regs.len.toNat = 0 then 0x00#8 else Memory.cell s.regs.payload 0) := by decide

theorem witness_LatchIsLastWriteCell_reset :
    ∃ t, step (stateWith (regsWith St.tail (latch := 5)) [Input.ofReset]) = .next t ∧
      (nextInput (stateWith (regsWith St.tail (latch := 5)) [Input.ofReset])).reset = true := ⟨_, rfl, rfl⟩

theorem witness_LatchIsLastWriteCell_events :
    let s := stateWith (regsWith St.tail (latch := 5)) [Input.ofByteAndTake 0xFB]
    ∃ t, step s = .next t ∧ (nextInput s).reset = false ∧ t.out.frameDone = true := ⟨_, rfl, rfl, rfl⟩

theorem witness_LatchIsLastWriteCell_noPublish :
    let s := stateWith (regsWith St.tail (latch := 5)) [Input.ofByte 0xFA]
    ∃ t, step s = .next t ∧ (nextInput s).reset = false ∧ t.out.frameDone = false := ⟨_, rfl, rfl, rfl⟩

theorem witness_TwoTakesReturnValueThenZero :
    (stateWith (regsWith St.awaitHeadLow (latch := 0xAA)) [Input.ofTake, Input.ofTake]).inputs =
      Input.ofTake :: Input.ofTake :: [] := rfl

theorem witness_ResetWinsAndInitializes :
    let i : Input := { reset := true, feed := some 0xFB, take := true }
    (stateWith (regsWith St.tail (latch := 5)) [i]).inputs = i :: [] ∧ i.reset = true := ⟨rfl, rfl⟩

theorem witness_IdleStepsHoldEveryRegister :
    (stateWith (regsWith St.data (len := 3) (rc := 1)) [Input.idle, Input.idle]).inputs =
      List.replicate 2 Input.idle ++ [] ∧
    (stateWith (regsWith St.data (len := 3) (rc := 1))).inputs = [] := by decide

theorem witness_NoInputFaults : (stateWith (regsWith St.data (len := 8) (rc := 7))).regs.len.toNat ≤ 8 := by decide

theorem witness_OnlyFeedOrResetWritesSt_take :
    let s := stateWith (regsWith 0xF#4 (latch := 5)) [Input.ofTake]
    ∃ t, step s = .next t ∧ (nextInput s).reset = false ∧ (nextInput s).feed = none := ⟨_, rfl, rfl, rfl⟩

theorem witness_OnlyFeedOrResetWritesSt_feed :
    let s := stateWith (regsWith 0xF#4) [Input.ofByte 0xF4]
    ∃ t, step s = .next t ∧ (nextInput s).feed.isSome = true := ⟨_, rfl, rfl⟩

theorem witness_EachRegisterHasOnlyItsWriters_lenLo :
    let s := stateWith (regsWith St.lengthLow) [Input.ofByte 0xF4]
    ∃ t, step s = .next t ∧ (nextInput s).reset = false ∧ t.regs.lenLo ≠ s.regs.lenLo := ⟨_, rfl, rfl, by decide⟩

theorem witness_EachRegisterHasOnlyItsWriters_len :
    let s := stateWith (regsWith St.lengthHigh (lenLo := 8)) [Input.ofByte 0x00]
    ∃ t, step s = .next t ∧ (nextInput s).reset = false ∧ t.regs.len ≠ s.regs.len := ⟨_, rfl, rfl, by decide⟩

theorem witness_EachRegisterHasOnlyItsWriters_rc :
    let s := stateWith (regsWith St.awaitHeadHigh (rc := 5)) [Input.ofByte 0xF5]
    ∃ t, step s = .next t ∧ (nextInput s).reset = false ∧ t.regs.rc ≠ s.regs.rc := ⟨_, rfl, rfl, by decide⟩

theorem witness_EachRegisterHasOnlyItsWriters_cksum :
    let s := stateWith (regsWith St.checksumHigh) [Input.ofByte 0xA5]
    ∃ t, step s = .next t ∧ (nextInput s).reset = false ∧ t.regs.cksum ≠ s.regs.cksum := ⟨_, rfl, rfl, by decide⟩

theorem witness_EachRegisterHasOnlyItsWriters_payload :
    let s := stateWith (regsWith St.data (len := 8) (rc := 7)) [Input.ofByte 0xD7]
    ∃ t, step s = .next t ∧ (nextInput s).reset = false ∧ Memory.cell t.regs.payload 7 ≠ Memory.cell s.regs.payload 7 ∧
      t.regs.rc ≠ s.regs.rc := ⟨_, rfl, rfl, by decide, by decide⟩

theorem witness_AbortWritesOnlySt :
    let s := stateWith (regsWith St.tail (latch := 5)) [Input.ofByte 0xF4]
    s.inputs = Input.ofByte 0xF4 :: [] ∧ ∃ t, step s = .next t ∧ t.regs.st = St.awaitHeadLow ∧ t.out.frameDone = false :=
  ⟨rfl, _, rfl, rfl, rfl⟩

/-- A state in the middle of a frame meets the invariants. -/
theorem witness_EveryStepKeepsInvariants :
    Inv (stateWith (regsWith St.data (len := 8) (rc := 7) (payload := [(0, 0xD0#8), (6, 0xD6#8)]))).regs := by
  constructor <;> decide

theorem witness_PayloadHoldsCurrentFramesData :
    let s₀ := stateWith (regsWith St.awaitHeadLow (rc := 5) (payload := [(0, 0x77#8)]))
      (feeds [0xF4, 0xF5, 0x02, 0x00, 0x01, 0x02, 0x03, 0xAA])
    s₀.regs.st = St.awaitHeadLow ∧ ∃ f s, runFed 8 Fed.nothing s₀ = .next (f, s) ∧ St.data ≤ s.regs.st ∧
      St.Legal s.regs.st ∧ 0 < s.regs.rc.toNat := ⟨rfl, _, _, rfl, by decide, by decide, by decide⟩

theorem witness_PayloadBeforeFrameIsUnobservable : (stateWith (regsWith St.awaitHeadLow)).regs.st = St.awaitHeadLow := rfl

/-- A frame with an idle step and a take inside, the TAIL fed together with a take. -/
theorem witness_WellFormedFramePublishesOnce :
    let pre := feeds [0xF4, 0xF5, 0x01] ++ Input.idle :: feeds [0x00, 0x01, 0x02, 0x03, 0xAA] ++
      Input.ofTake :: feeds [0xCC, 0xDD]
    let last := Input.ofByteAndTake 0xFB
    let s := stateWith (regsWith St.awaitHeadHigh (len := 9) (rc := 12) (latch := 5)) (pre ++ last :: [])
    (s.regs.st = St.awaitHeadLow ∨ s.regs.st = St.awaitHeadHigh) ∧ [0xAA#8].length ≤ 8 ∧
    (∀ i ∈ pre, i.reset = false) ∧ last.reset = false ∧ last.feed = some Config.tail ∧
    bytesFed pre ++ [Config.tail] = frameBytes 0x01 0x02 0x03 [0xAA#8] 0xDDCC ∧ s.inputs = pre ++ last :: [] := by
  decide

theorem witness_NoPublishWithoutFrame :
    let s₀ := stateWith (regsWith St.awaitHeadLow (latch := 5)) (feeds (frameBytes 0x00 0x05 0x00 [] 0x0000))
    s₀.regs.st = St.awaitHeadLow ∧ ∃ f s u, runFed 9 Fed.nothing s₀ = .next (f, s) ∧ step s = .next u ∧
      u.out.frameDone = true := ⟨rfl, _, _, _, rfl, rfl, rfl⟩

theorem witness_BackToBackFramesPublishInOrder :
    let is := feeds (frameBytes 0 0 0 [0x05#8] 0 ++ frameBytes 0 0 0 [0x06#8] 0) ++ Input.ofTake :: []
    let s := stateWith (regsWith St.awaitHeadLow) is
    s.regs.st = St.awaitHeadLow ∧ [0x05#8].length ≤ 8 ∧ [0x06#8].length ≤ 8 ∧ s.inputs = is := by decide

theorem witness_GarbageBetweenHeadBytes :
    let s := stateWith (regsWith St.awaitHeadLow) (feeds [0xF4#8, 0x12#8] ++ [])
    s.regs.st = St.awaitHeadLow ∧ (0x12#8 : Byte) ≠ 0xF4#8 ∧ (0x12#8 : Byte) ≠ 0xF5#8 ∧
    s.inputs = feeds [0xF4#8, 0x12#8] ++ [] := by decide

theorem witness_OversizedLengthResynchronizes :
    let s := stateWith (regsWith St.awaitHeadLow) (feeds [0xF4#8, 0xF5#8, 0x09#8, 0x00#8] ++ [])
    s.regs.st = St.awaitHeadLow ∧ 8 < (0x00#8 : Byte).toNat * 256 + (0x09#8 : Byte).toNat ∧
    s.inputs = feeds [0xF4#8, 0xF5#8, 0x09#8, 0x00#8] ++ [] := by decide

theorem witness_RejectingByteStartsNoHead :
    let s := stateWith (regsWith St.lengthHigh (lenLo := 0)) (feeds [0xF4#8, 0xF5#8] ++ [])
    let s' := stateWith (regsWith St.tail) (feeds [0xF4#8, 0xF5#8] ++ [])
    (s.regs.st = St.lengthHigh ∧ s.inputs = feeds [0xF4#8, 0xF5#8] ++ []) ∧
    (s'.regs.st = St.tail ∧ s'.inputs = feeds [0xF4#8, 0xF5#8] ++ []) := by decide

theorem witness_TruncatedFrameAbsorbsBytes :
    let s := stateWith (regsWith St.data (len := 3) (rc := 1)) (feeds [0xF4#8, 0xFB#8] ++ [])
    s.regs.st = St.data ∧ s.regs.len.toNat ≤ 8 ∧ s.regs.rc.toNat < s.regs.len.toNat ∧
    s.regs.rc.toNat + [0xF4#8, 0xFB#8].length = s.regs.len.toNat ∧
    s.inputs = feeds [0xF4#8, 0xFB#8] ++ [] := by decide

end Sys2Proof.Tests
end

/-! Idle steps (10_state.md R38): delivered, or because no input is left. -/

namespace Sys2Proof.Machine

theorem step_of_idle {s : State} (h : nextInput s = Input.idle) :
    step s = .next (clearOutputs (consumeInput s)) := by
  rw [step_of_noReset (by rw [h]; rfl), afterTake, h]
  rfl

theorem runSteps_succ_of_idle {s : State} (k : Nat) (h : nextInput s = Input.idle) :
    runSteps (k + 1) s = andThen (runSteps k (clearOutputs (consumeInput s)))
      (fun r => .next (Outputs.quiet :: r.1, r.2)) := by
  rw [runSteps, step_of_idle h, andThen_next, clearOutputs_out]

/-- Both ways of being idle in one hypothesis: of the next k inputs, each one that has been delivered is idle. -/
theorem runSteps_of_take_idle (k : Nat) (s : State) (h : ∀ i ∈ s.inputs.take k, i = Input.idle) :
    ∃ t : State, runSteps k s = .next (List.replicate k Outputs.quiet, t) ∧ t.regs = s.regs ∧
      t.inputs = s.inputs.drop k := by
  induction k generalizing s with
  | zero => exact ⟨s, rfl, rfl, rfl⟩
  | succ k ih =>
    have hs : nextInput s = Input.idle ∧ ∀ i ∈ s.inputs.tail.take k, i = Input.idle := by
      cases hi : s.inputs with
      | nil => simp [nextInput_nil hi]
      | cons i is => simpa [hi, nextInput_cons hi] using h
    obtain ⟨hnext, htail⟩ := hs
    obtain ⟨t, hrun, hregs, hinputs⟩ := ih (clearOutputs (consumeInput s)) (by simpa using htail)
    refine ⟨t, ?_, by simpa using hregs, by simpa using hinputs⟩
    rw [runSteps_succ_of_idle k hnext, hrun, andThen_next, List.replicate_succ]

/-- Settles O30: delivered idle inputs and an empty input list are the two cases in which the next k inputs hold
nothing but idle ones. -/
theorem idleStepsHoldEveryRegister : Obligations.IdleStepsHoldEveryRegister := by
  intro k s rest
  constructor
  · intro h
    simpa [h, Outputs.quiet] using runSteps_of_take_idle k s (by simp [h])
  · intro h
    simpa [h, Outputs.quiet] using runSteps_of_take_idle k s (by simp [h])

end Sys2Proof.Machine

/-! What a frame decoder row answers, said once per row whose meaning branches (40_frame_decoder.md R87, R90, R91, R94),
and the frames of the two shapes the other rows share: a plain move of `st`, and an abort (60_exceptions.md R123). -/

namespace Sys2Proof.Machine

/-! ### From an answer to `Gives` -/

theorem gives_of_eq_next {o : Host.Outcome State Fault Refusal} {t : State} (h : o = .next t) :
    Gives o t.regs t.out t.inputs := ⟨t, h, rfl, rfl, rfl⟩

/-- R80: a feed that emits no frame and only moves `st`. -/
theorem gives_setSt_noFrame (c : StCode) (s : State) :
    Gives (.next (setSt c (noFrame s))) { s.regs with st := c } s.out.withoutFrame s.inputs := gives_of_eq_next rfl

/-- A feed that aborts differs from a move to `AwaitHeadLow` only in the label. -/
theorem gives_abort_noFrame (l : AbortLabel) (s : State) :
    Gives (.next (abort l (noFrame s))) { s.regs with st := St.awaitHeadLow } s.out.withoutFrame s.inputs :=
  gives_of_eq_next rfl

theorem regs_with_st_eq_self {r : Regs} {c : StCode} (h : r.st = c) : { r with st := c } = r := by
  subst h; rfl

theorem count_eq_zero_iff (n : Count) : n = 0#4 ↔ n.toNat = 0 := BitVec.toNat_eq

/-! ### The rows whose meaning branches -/

theorem execFeedLenhi_of_le {b : Byte} {s : State} (h : (declaredLength b s.regs.lenLo).toNat ≤ Config.maxPayload) :
    execFeedLenhi b s =
      .next (setSt St.type (setLen (lengthCount (declaredLength b s.regs.lenLo)) (noFrame s))) :=
  if_pos ((lengthAccepted_iff _).2 h)

theorem execFeedLenhi_of_gt {b : Byte} {s : State} (h : Config.maxPayload < (declaredLength b s.regs.lenLo).toNat) :
    execFeedLenhi b s = .next (abort .overlong (noFrame s)) :=
  if_neg (mt (lengthAccepted_iff _).1 (Nat.not_le_of_gt h))

theorem execFeedSeq_of_pos (b : Byte) {s : State} (h : 0#4 < s.regs.len) :
    execFeedSeq b s = .next (setSt St.data (noFrame s)) := by
  rw [execFeedSeq, if_pos h]

theorem execFeedSeq_of_zero (b : Byte) {s : State} (h : s.regs.len = 0#4) :
    execFeedSeq b s = .next (setSt St.checksumLow (noFrame s)) := by
  rw [execFeedSeq, h, if_neg (by decide)]

theorem execFeedData_of_lt {b : Byte} {s : State} (h : s.regs.rc < s.regs.len)
    (hi : s.regs.rc.toNat < Config.maxPayload) :
    execFeedData b s =
      .next (setSt (if s.regs.rc + 1#4 = s.regs.len then St.checksumLow else St.data)
        (setRc (s.regs.rc + 1#4) (setPayload (Memory.setCell s.regs.payload s.regs.rc.toNat b) (noFrame s)))) := by
  rw [execFeedData, if_pos h, memWrite_eq_some.2 ⟨hi, rfl⟩]

theorem execFeedData_of_ge (b : Byte) {s : State} (h : s.regs.len ≤ s.regs.rc) :
    execFeedData b s = .next (setSt St.checksumLow (noFrame s)) := by
  rw [execFeedData, if_neg (BitVec.not_lt.2 h)]

theorem execFeedTailOk_of_designatedId {s : State} {id : Byte} (h : designatedId s.regs = some id) :
    execFeedTailOk s = .next (setSt St.awaitHeadLow (emitFrame id (publish id s))) := by
  rw [execFeedTailOk, h]

/-! ### Length and payload -/

/-- Settles O14: L is the value of the two length bytes side by side, and `L[3:0]` keeps an accepted one whole. -/
theorem lengthHighAcceptsUpToEight : Obligations.LengthHighAcceptsUpToEight := by
  intro b
  refine ⟨decode_feedKey _ b, fun s => ?_⟩
  rw [← declaredLength_toNat]
  constructor
  · intro hle
    exact ⟨_, lengthCount_toNat hle, gives_of_eq_next (execFeedLenhi_of_le hle)⟩
  · intro hgt
    exact gives_of_eq_next (execFeedLenhi_of_gt hgt)

/-- Settles O17: a count below `len` does not wrap when it goes up, and the write is at that one index. -/
theorem dataByteIsStoredAtRc : Obligations.DataByteIsStoredAtRc := by
  intro b
  refine ⟨decode_feedKey _ b, fun s => ⟨fun hlt hi => ?_, fun hge => ?_⟩⟩
  · have hlt : s.regs.rc < s.regs.len := BitVec.lt_def.2 hlt
    exact ⟨Memory.setCell s.regs.payload s.regs.rc.toNat b, s.regs.rc + 1#4,
      gives_of_eq_next (execFeedData_of_lt hlt hi), count_succ_toNat hlt, cell_setCell_same _ _ b,
      fun _ ha => cell_setCell_other _ b ha⟩
  · exact gives_of_eq_next (execFeedData_of_ge b (BitVec.le_def.2 hge))

/-- Settles O13: the row of `LengthLow` takes every byte. -/
theorem lengthLowIsHeld : Obligations.LengthLowIsHeld :=
  fun b => ⟨decode_feedKey _ b, fun s => gives_of_eq_next (t := setSt St.lengthHigh (setLenLo b (noFrame s))) rfl⟩

/-! ### Head search -/

/-- Settles O8: a plain move of `st`. -/
theorem headLowFoundWhileScanning : Obligations.HeadLowFoundWhileScanning :=
  ⟨by decide, by decide, fun s => gives_setSt_noFrame _ s⟩

/-- Settles O9: the move is to the code that `st` holds while scanning, so there it changes nothing. -/
theorem otherByteWhileScanning : Obligations.OtherByteWhileScanning := by
  intro b hb
  have hdecode : decode (feedKey St.awaitHeadLow b) = .feedAhlScan b := by
    rw [decode_feedKey, decodeFeed_awaitHeadLow, if_neg hb]
  refine ⟨hdecode, fun s => ?_⟩
  have hmove : Gives (exec (.feedAhlScan b) s) { s.regs with st := St.awaitHeadLow } s.out.withoutFrame s.inputs :=
    gives_setSt_noFrame _ s
  refine ⟨hmove, fun hst => ?_⟩
  rwa [regs_with_st_eq_self hst] at hmove

/-- Settles O10: `rc` is cleared before the move of `st`. -/
theorem headHighStartsFrameAttempt : Obligations.HeadHighStartsFrameAttempt :=
  ⟨by decide, by decide, fun s => gives_of_eq_next (t := setSt St.lengthLow (setRc 0#4 (noFrame s))) rfl⟩

/-- Settles O11: a plain move of `st`. -/
theorem repeatedHeadLowStays : Obligations.RepeatedHeadLowStays :=
  ⟨by decide, by decide, fun s => gives_setSt_noFrame _ s⟩

/-- Settles O12: neither head byte's row matches, and the row left over aborts. -/
theorem badHeadHighResynchronizes : Obligations.BadHeadHighResynchronizes := by
  intro b hlow hhigh
  have hdecode : decode (feedKey St.awaitHeadHigh b) = .feedAhhResync b := by
    rw [decode_feedKey, decodeFeed_awaitHeadHigh, if_neg hhigh, if_neg hlow]
  exact ⟨hdecode, fun s => gives_abort_noFrame _ s⟩

/-! ### Discarded header fields -/

/-- Settles O15: two plain moves of `st`. -/
theorem typeAndCmdAreDiscarded : Obligations.TypeAndCmdAreDiscarded :=
  fun b => ⟨decode_feedKey _ b, decode_feedKey _ b,
    fun s => ⟨gives_setSt_noFrame _ s, gives_setSt_noFrame _ s⟩⟩

/-- Settles O16: a plain move of `st` on each side of `len > 0`. -/
theorem seqSelectsDataOrChecksum : Obligations.SeqSelectsDataOrChecksum := by
  intro b
  refine ⟨decode_feedKey _ b, fun s => ⟨fun hpos => ?_, fun hzero => ?_⟩⟩
  · exact gives_of_eq_next (execFeedSeq_of_pos b (BitVec.lt_def.2 hpos))
  · exact gives_of_eq_next (execFeedSeq_of_zero b ((count_eq_zero_iff _).2 hzero))

/-! ### Checksum and tail -/

/-- Settles O19: the new `cksum` is the old high byte over b. -/
theorem checksumLowIsCaptured : Obligations.ChecksumLowIsCaptured :=
  fun b => ⟨decode_feedKey _ b, fun s => ⟨withCksumLow s.regs.cksum b,
    gives_of_eq_next (t := setSt St.checksumHigh (setCksum (withCksumLow s.regs.cksum b) (noFrame s))) rfl,
    withCksumLow_low _ b, withCksumLow_high _ b⟩⟩

/-- Settles O20: the new `cksum` is b over the old low byte. -/
theorem checksumHighIsCaptured : Obligations.ChecksumHighIsCaptured :=
  fun b => ⟨decode_feedKey _ b, fun s => ⟨withCksumHigh s.regs.cksum b,
    gives_of_eq_next (t := setSt St.tail (setCksum (withCksumHigh s.regs.cksum b) (noFrame s))) rfl,
    withCksumHigh_high _ b, withCksumHigh_low _ b⟩⟩

/-- Settles O21: the statement's id is the designated identifier, which always exists. -/
theorem goodTailPublishes : Obligations.GoodTailPublishes := by
  refine ⟨by decide, by decide, fun s id hid => ?_⟩
  have hdesignated : designatedId s.regs = some id := by
    rw [designatedId_eq, hid]
    simp only [count_eq_zero_iff]
  exact gives_of_eq_next (execFeedTailOk_of_designatedId hdesignated)

/-- Settles O22: the exact row of `Tail` does not match, and the row left over aborts. -/
theorem badTailDropsFrame : Obligations.BadTailDropsFrame := by
  intro b hb
  have hdecode : decode (feedKey St.tail b) = .feedTailBad b := by
    rw [decode_feedKey, decodeFeed_tail, if_neg hb]
  exact ⟨hdecode, fun s => gives_abort_noFrame _ s⟩

/-! ### Illegal codes -/

/-- Settles O23: both illegal rows abort. -/
theorem illegalCodeRecovers : Obligations.IllegalCodeRecovers :=
  fun b ss s => ⟨decode_feedKey _ b, (decode_feedKey _ b).trans (decodeFeed_illegalCf ss b),
    gives_abort_noFrame _ s, gives_abort_noFrame _ s⟩

end Sys2Proof.Machine

/-! The Command Latch (41_command_latch.md R111, R113): a take's two writes, made before a feed's operation, can be
moved behind it, where only a publish has overwritten one of them. -/

namespace Sys2Proof.Machine

/-- Settles O24: the row's answer clears the latch after driving its old value. -/
theorem takeReadsAndClears : Obligations.TakeReadsAndClears :=
  ⟨decode_takeKey, fun s => gives_of_eq_next (t := setLatch Config.empty (driveTakeData s.regs.latch s)) rfl⟩

/-- R66: every row that a state code and a byte select is a FEED row. -/
theorem decodeFeed_ne_take (c : StCode) (b : Byte) : decodeFeed c b ≠ .take := by
  unfold decodeFeed
  repeat' refine iteInduction (motive := (· ≠ Instr.take)) (fun _ => ?_) (fun _ => ?_)
  all_goals exact Instr.noConfusion

/-- R41: a DATA byte below `len` that answers a next state was written at an entry of the buffer. -/
theorem rc_lt_maxPayload_of_execFeedData {b : Byte} {s u : State} (hlt : s.regs.rc < s.regs.len)
    (h : execFeedData b s = .next u) : s.regs.rc.toNat < Config.maxPayload := by
  by_contra hge
  rw [execFeedData, if_pos hlt, memWrite_eq_none.2 (Nat.le_of_not_lt hge)] at h
  cases h

/-- The key fact of R113: no operation of a feed reads the latch or `take_data`, and it writes neither, except that a
publish overwrites the latch. -/
theorem exec_setLatch_driveTakeData {i : Instr} (hi : i ≠ .take) (l v : Byte) {s u : State}
    (h : exec i s = .next u) :
    exec i (setLatch l (driveTakeData v s)) =
      .next (setLatch (if u.out.frameDone then u.out.frameId else l) (driveTakeData v u)) := by
  cases i with
  | take => exact absurd rfl hi
  | feedLenhi b =>
    rcases Nat.lt_or_ge Config.maxPayload (declaredLength b s.regs.lenLo).toNat with hgt | hle
    · cases (execFeedLenhi_of_gt hgt).symm.trans h
      exact execFeedLenhi_of_gt (s := setLatch l (driveTakeData v s)) hgt
    · cases (execFeedLenhi_of_le hle).symm.trans h
      exact execFeedLenhi_of_le (s := setLatch l (driveTakeData v s)) hle
  | feedData b =>
    by_cases hlt : s.regs.rc < s.regs.len
    · have hrc := rc_lt_maxPayload_of_execFeedData hlt h
      cases (execFeedData_of_lt hlt hrc).symm.trans h
      exact execFeedData_of_lt (s := setLatch l (driveTakeData v s)) hlt hrc
    · have hge := BitVec.not_lt.1 hlt
      cases (execFeedData_of_ge b hge).symm.trans h
      exact execFeedData_of_ge b (s := setLatch l (driveTakeData v s)) hge
  | feedTailOk =>
    have hid := designatedId_eq s.regs
    cases (execFeedTailOk_of_designatedId hid).symm.trans h
    exact execFeedTailOk_of_designatedId (s := setLatch l (driveTakeData v s)) hid
  | _ => cases h; rfl

/-- A step that feeds runs the row of its code and byte on the state its take leaves. -/
theorem step_of_feed {s : State} {b : Byte} (hr : (nextInput s).reset = false) (hf : (nextInput s).feed = some b) :
    step s = exec (decodeFeed s.regs.st b) (afterTake s) := by
  rw [step_of_noReset hr, hf, serveFeed_afterTake]

theorem step_of_ofByte (s : State) (b : Byte) (rest : List Input) :
    step { s with inputs := Input.ofByte b :: rest } =
      exec (decodeFeed s.regs.st b) (clearOutputs { s with inputs := rest }) :=
  step_of_feed (s := { s with inputs := Input.ofByte b :: rest }) rfl rfl

theorem step_of_ofByteAndTake {s : State} {b : Byte} {rest : List Input}
    (h : s.inputs = Input.ofByteAndTake b :: rest) :
    step s = exec (decodeFeed s.regs.st b)
      (setLatch Config.empty (driveTakeData s.regs.latch (clearOutputs { s with inputs := rest }))) := by
  have hnext := nextInput_cons h
  rw [step_of_feed (by rw [hnext]; rfl) (by rw [hnext]; rfl), afterTake, hnext, consumeInput_cons h]
  rfl

/-- Settles O25: both steps run the same row, and the take's writes move behind it. -/
theorem takeIsOrderedBeforePublish : Obligations.TakeIsOrderedBeforePublish := by
  intro s u b rest hinputs hfeed
  rw [step_of_ofByte] at hfeed
  have htake := exec_setLatch_driveTakeData (decodeFeed_ne_take _ b) Config.empty s.regs.latch hfeed
  rw [← step_of_ofByteAndTake hinputs] at htake
  exact ⟨_, htake, rfl, rfl, exec_inputs hfeed⟩

end Sys2Proof.Machine

/-! Reset (70_reset_and_hazards.md R140, R141): the answer of a step whose delivered input asserts reset. -/

namespace Sys2Proof.Machine

/-- R141: no feed, take or earlier output of the step shows in what a delivered reset leaves. -/
theorem gives_step_of_reset {s : State} {i : Input} {rest : List Input} (hinputs : s.inputs = i :: rest)
    (hreset : i.reset = true) : Gives (step s) (resetRegs s.regs) Outputs.quiet rest := by
  have hnext : (nextInput s).reset = true := by rw [nextInput_cons hinputs, hreset]
  have hstep : step s = .next (resetStep { s with inputs := rest }) := by
    rw [step_of_reset hnext, consumeInput_cons hinputs]
  exact gives_of_eq_next hstep

/-- Settles O29: the statement's registers are `resetRegs` of the step's own, and `State.reset` holds them with an empty
payload. -/
theorem resetWinsAndInitializes : Obligations.ResetWinsAndInitializes :=
  ⟨fun _ _ _ hinputs hreset => gives_step_of_reset hinputs hreset, [], rfl⟩

end Sys2Proof.Machine

/-! The opcode map (30_encoding.md R66 to R68): decoder and encoder undo each other, and the rows part the keys. -/

namespace Sys2Proof

open Machine

/-! ### Decoder and encoder -/

theorem wellFormed_feedAhlScan (b : Byte) : (Instr.feedAhlScan b).WellFormed ↔ b ≠ Config.headLow :=
  bne_iff_ne

theorem wellFormed_feedAhhResync (b : Byte) :
    (Instr.feedAhhResync b).WellFormed ↔ b ≠ Config.headLow ∧ b ≠ Config.headHigh := by
  simp [Instr.WellFormed, Instr.wellFormed]

theorem wellFormed_feedTailBad (b : Byte) : (Instr.feedTailBad b).WellFormed ↔ b ≠ Config.tail := bne_iff_ne

/-- Settles O1: a row's key decodes by its code and byte, and well-formedness shuts out the bytes of the exact rows. -/
theorem decodeOfEncode : Obligations.DecodeOfEncode := by
  intro i hi
  cases i with
  | feedAhlHead | feedAhhHead | feedAhhRehead | feedTailOk | take => decide
  | feedAhlScan b => exact (decode_feedKey _ b).trans (if_neg ((wellFormed_feedAhlScan b).1 hi))
  | feedAhhResync b =>
    obtain ⟨hlow, hhigh⟩ := (wellFormed_feedAhhResync b).1 hi
    exact (decode_feedKey _ b).trans ((if_neg hhigh).trans (if_neg hlow))
  | feedTailBad b => exact (decode_feedKey _ b).trans (if_neg ((wellFormed_feedTailBad b).1 hi))
  | feedIllegalCf ss b => exact (decode_feedKey _ b).trans (decodeFeed_illegalCf ss b)
  | _ => exact decode_feedKey _ _

/-- R67: the row that a code and a byte select is well-formed, and its key is the code and the byte. -/
theorem decodeFeed_spec (c : StCode) (b : Byte) :
    (decodeFeed c b).WellFormed ∧ encode (decodeFeed c b) = feedKey c b := by
  rcases stCode_cases c with
    rfl | rfl | rfl | rfl | rfl | rfl | rfl | rfl | rfl | rfl | rfl | rfl | ⟨ss, rfl⟩
  · by_cases hb : b = Config.headLow
    · subst hb; decide
    · rw [decodeFeed_awaitHeadLow, if_neg hb]; exact ⟨(wellFormed_feedAhlScan b).2 hb, rfl⟩
  · by_cases hhigh : b = Config.headHigh
    · subst hhigh; decide
    · by_cases hlow : b = Config.headLow
      · subst hlow; decide
      · rw [decodeFeed_awaitHeadHigh, if_neg hhigh, if_neg hlow]
        exact ⟨(wellFormed_feedAhhResync b).2 ⟨hlow, hhigh⟩, rfl⟩
  on_goal 9 =>
    by_cases hb : b = Config.tail
    · subst hb; decide
    · rw [decodeFeed_tail, if_neg hb]; exact ⟨(wellFormed_feedTailBad b).2 hb, rfl⟩
  on_goal 10 => rw [decodeFeed_illegalCf]; exact ⟨rfl, rfl⟩
  all_goals exact ⟨rfl, rfl⟩

/-- The operation of a feed tells the feed's code and byte. -/
theorem code_byte_of_decodeFeed {c : StCode} {b : Byte} {i : Instr} (h : decodeFeed c b = i) :
    c = Key.code (encode i) ∧ b = Key.byte (encode i) := by
  rw [← h, (decodeFeed_spec c b).2, code_feedKey, byte_feedKey]
  exact ⟨rfl, rfl⟩

/-- R66: a key is TAKE's or the key of its own code and byte. -/
theorem feedKey_code_byte {k : Key} (h : Key.isTake k = false) : feedKey (Key.code k) (Key.byte k) = k := by
  apply BitVec.eq_of_getLsbD_eq
  intro i hi
  unfold Key.isTake at h
  unfold feedKey Key.code Key.byte
  simp only [BitVec.getLsbD_append, BitVec.getLsbD_extractLsb']
  by_cases h8 : i < 8
  · simp [h8]
  · by_cases h12 : i < 12
    · have : 8 + (i - 8) = i := by omega
      have : i - 8 < 4 := by omega
      simp [*]
    · obtain rfl : i = 12 := by omega
      simpa using h

/-- Settles O2: a key is TAKE's, or the decoder's row has the key's own code and byte. -/
theorem encodeOfDecode : Obligations.EncodeOfDecode := by
  intro k
  cases hk : Key.isTake k with
  | true => simp [decode, hk, encode, takeKey]
  | false =>
    rw [decode, hk, if_neg Bool.false_ne_true, (decodeFeed_spec _ _).2]
    exact feedKey_code_byte hk

/-- Settles O4: the eleven keys are closed terms, and the decoder computes on each. -/
theorem writtenKeysDecode : Obligations.WrittenKeysDecode := by
  unfold Obligations.WrittenKeysDecode
  decide

theorem feedKey_toNat (c : StCode) (b : Byte) : (feedKey c b).toNat = c.toNat * 256 + b.toNat := by
  rw [feedKey, BitVec.toNat_append, BitVec.toNat_append, Nat.shiftLeft_eq, Nat.mul_comm _ (2 ^ 8),
    ← Nat.two_pow_add_eq_or_of_lt b.isLt]
  simp [Nat.mul_comm]

/-- Settles O5: the fields of a FEED key, and TAKE's key computed. -/
theorem decodeKeyFields : Obligations.DecodeKeyFields :=
  fun c b => ⟨feedKey_toNat c b, isTake_feedKey c b, code_feedKey c b, byte_feedKey c b, rfl, rfl⟩

/-! ### The rows part the keys -/

/-- The encoder's key matches the operation's own row, all rows together. -/
theorem hits_row_encode : ∀ i : Instr, i.WellFormed → i.row.hits (encode i) = true
  | .feedAhlHead => Laws.EncodeHitsRow.feedAhlHead
  | .feedAhlScan b => Laws.EncodeHitsRow.feedAhlScan b
  | .feedAhhHead => Laws.EncodeHitsRow.feedAhhHead
  | .feedAhhRehead => Laws.EncodeHitsRow.feedAhhRehead
  | .feedAhhResync b => Laws.EncodeHitsRow.feedAhhResync b
  | .feedLenlo b => Laws.EncodeHitsRow.feedLenlo b
  | .feedLenhi b => Laws.EncodeHitsRow.feedLenhi b
  | .feedType b => Laws.EncodeHitsRow.feedType b
  | .feedCmd b => Laws.EncodeHitsRow.feedCmd b
  | .feedSeq b => Laws.EncodeHitsRow.feedSeq b
  | .feedData b => Laws.EncodeHitsRow.feedData b
  | .feedCklo b => Laws.EncodeHitsRow.feedCklo b
  | .feedCkhi b => Laws.EncodeHitsRow.feedCkhi b
  | .feedTailOk => Laws.EncodeHitsRow.feedTailOk
  | .feedTailBad b => Laws.EncodeHitsRow.feedTailBad b
  | .feedIllegalB b => Laws.EncodeHitsRow.feedIllegalB b
  | .feedIllegalCf ss b => Laws.EncodeHitsRow.feedIllegalCf ss b
  | .take => Laws.EncodeHitsRow.take

theorem hits_iff {r : Row} {k : Key} : r.hits k = true ↔ k &&& r.mask = r.value ∧ k ∉ r.except := by
  simp [Row.hits]

/-- A row whose mask is whole matches one key. -/
theorem eq_of_and_fullMask {k v : Key} (h : k &&& 0x1FFF#13 = v) : k = v := by
  rw [← h]
  exact (BitVec.and_allOnes).symm

theorem isTake_and (k m : Key) : Key.isTake (k &&& m) = (Key.isTake k && Key.isTake m) := BitVec.getLsbD_and ..

/-- A mask with bit 12 reads op. -/
theorem isTake_eq_of_and {k m v : Key} (hm : Key.isTake m = true) (h : k &&& m = v) : Key.isTake k = Key.isTake v := by
  rw [← h, isTake_and, hm, Bool.and_true]

/-- A row whose mask is op and s matches the FEED keys of its own code. -/
theorem eq_feedKey_of_and_codeMask {k v : Key} (hv : Key.isTake v = false) (h : k &&& 0x1F00#13 = v) :
    k = feedKey (Key.code v) (Key.byte k) := by
  have hk : feedKey (Key.code k) (Key.byte k) = k := feedKey_code_byte ((isTake_eq_of_and rfl h).trans hv)
  have hcode : Key.code v = Key.code k := by rw [← h, ← hk, feedKey_and_codeMask, code_feedKey, hk]
  rw [hcode, hk]

/-- The row of FEED.ILLEGAL.CF matches the FEED keys of the codes 0xC to 0xF. -/
theorem eq_feedKey_of_and_cfMask {k : Key} (h : k &&& 0x1C00#13 = 0x0C00#13) :
    ∃ ss : BitVec 2, k = feedKey (0b11#2 ++ ss) (Key.byte k) := by
  have hcodes : ∀ c : StCode, feedKey c 0#8 &&& 0x1C00#13 = 0x0C00#13 → ∃ ss : BitVec 2, c = 0b11#2 ++ ss := by decide
  have hk : feedKey (Key.code k) (Key.byte k) = k := feedKey_code_byte (isTake_eq_of_and rfl h)
  have hmask : (0x1C00#13) = 0x1F00#13 &&& 0x1C00#13 := rfl
  obtain ⟨ss, hss⟩ := hcodes (Key.code k) (by
    rw [← feedKey_and_codeMask _ (Key.byte k), BitVec.and_assoc, ← hmask, hk, h])
  exact ⟨ss, by rw [← hss, hk]⟩

/-- The rows are disjoint: a row that matches a key is the row of the operation the decoder reads. -/
theorem row_decode_of_hits {i : Instr} {k : Key} (h : i.row.hits k = true) : (decode k).row = i.row := by
  obtain ⟨hmask, hexcept⟩ := hits_iff.1 h
  have hfeed {c : StCode} (hk : k = feedKey c (Key.byte k)) : decode k = decodeFeed c (Key.byte k) := by
    rw [hk, decode_feedKey, byte_feedKey]
  cases i with
  | feedAhlHead | feedAhhHead | feedAhhRehead | feedTailOk => rw [eq_of_and_fullMask hmask]; decide
  | feedAhlScan b =>
    have hk := eq_feedKey_of_and_codeMask (v := 0x0000#13) rfl hmask
    have hb : Key.byte k ≠ Config.headLow := fun hb => hexcept (List.mem_singleton.2 (hk.trans (congrArg _ hb)))
    have hdecode : decode k = .feedAhlScan (Key.byte k) := (hfeed hk).trans (if_neg hb)
    rw [hdecode]
    rfl
  | feedAhhResync b =>
    have hk := eq_feedKey_of_and_codeMask (v := 0x0100#13) rfl hmask
    have hlow : Key.byte k ≠ Config.headLow :=
      fun hb => hexcept (List.mem_cons.2 (.inl (hk.trans (congrArg _ hb))))
    have hhigh : Key.byte k ≠ Config.headHigh :=
      fun hb => hexcept (List.mem_cons.2 (.inr (List.mem_singleton.2 (hk.trans (congrArg _ hb)))))
    have hdecode : decode k = .feedAhhResync (Key.byte k) := (hfeed hk).trans ((if_neg hhigh).trans (if_neg hlow))
    rw [hdecode]
    rfl
  | feedTailBad b =>
    have hk := eq_feedKey_of_and_codeMask (v := 0x0A00#13) rfl hmask
    have hb : Key.byte k ≠ Config.tail := fun hb => hexcept (List.mem_singleton.2 (hk.trans (congrArg _ hb)))
    have hdecode : decode k = .feedTailBad (Key.byte k) := (hfeed hk).trans (if_neg hb)
    rw [hdecode]
    rfl
  | feedIllegalCf ss b =>
    obtain ⟨ss', hk⟩ := eq_feedKey_of_and_cfMask hmask
    rw [hfeed hk, decodeFeed_illegalCf]
    rfl
  | take =>
    have htake : Key.isTake k = true := isTake_eq_of_and (m := 0x1000#13) (v := 0x1000#13) rfl hmask
    rw [decode, if_pos htake]
  | _ =>
    simp only [Instr.row] at hmask
    rw [hfeed (eq_feedKey_of_and_codeMask rfl hmask)]
    rfl

theorem decode_of_isTake {k : Key} (h : Key.isTake k = true) : decode k = .take := if_pos h

theorem decode_of_not_isTake {k : Key} (h : Key.isTake k = false) :
    decode k = decodeFeed (Key.code k) (Key.byte k) := by
  rw [decode, h, if_neg Bool.false_ne_true]

theorem decode_wellFormed (k : Key) : (decode k).WellFormed := by
  cases hk : Key.isTake k with
  | true => rw [decode_of_isTake hk]; rfl
  | false => rw [decode_of_not_isTake hk]; exact (decodeFeed_spec _ _).1

/-- The row of the operation the decoder reads matches the key. -/
theorem hits_row_decode (k : Key) : (decode k).row.hits k = true := by
  cases hk : Key.isTake k with
  | true =>
    have hmask : k &&& BitVec.twoPow 13 12 = BitVec.twoPow 13 12 := by rw [BitVec.and_twoPow]; exact if_pos hk
    rw [decode_of_isTake hk]
    exact Laws.EncodeHitsRow.hits_of hmask List.not_mem_nil
  | false =>
    have := hits_row_encode _ (decode_wellFormed k)
    rwa [encodeOfDecode k, hk] at this

theorem row_mem_opcodeTable (i : Instr) : i.row ∈ opcodeTable := by
  cases i <;> simp [opcodeTable, Instr.row]

theorem exists_row_of_mem_opcodeTable {r : Row} (h : r ∈ opcodeTable) : ∃ i : Instr, r = i.row := by
  simp only [opcodeTable, List.cons_append, List.nil_append, List.mem_cons, List.not_mem_nil, or_false] at h
  rcases h with h | h | h | h | h | h | h | h | h | h | h | h | h | h | h | h | h | h <;> exact ⟨_, h⟩

/-- Settles O3: among the 18 distinct rows, to match the key is to be the decoder's row. -/
theorem everyKeyMatchesExactlyItsRow : Obligations.EveryKeyMatchesExactlyItsRow := by
  intro k
  refine ⟨?_, decode_wellFormed k⟩
  have hhits : ∀ r ∈ opcodeTable, r.hits k = (r == (decode k).row) := by
    intro r hr
    obtain ⟨i, rfl⟩ := exists_row_of_mem_opcodeTable hr
    rw [Bool.eq_iff_iff, beq_iff_eq]
    exact ⟨fun h => (row_decode_of_hits h).symm, fun h => h ▸ hits_row_decode k⟩
  have hnodup : opcodeTable.Nodup := by decide
  rw [List.filter_congr hhits, List.filter_beq, List.count_eq_one_of_mem hnodup (row_mem_opcodeTable _)]
  rfl

end Sys2Proof

/-! The step as a whole (10_state.md R37): which operations it runs, that it cannot stop, and what it keeps. -/

namespace Sys2Proof.Machine

/-! ### A step runs the decoded operations -/

theorem exec_take (s : State) :
    exec .take s = .next (setLatch Config.empty (driveTakeData s.regs.latch s)) := rfl

/-- A step that only takes runs TAKE. -/
theorem step_of_take {s : State} (hr : (nextInput s).reset = false) (hf : (nextInput s).feed = none)
    (ht : (nextInput s).take = true) : step s = exec .take (clearOutputs (consumeInput s)) := by
  rw [step_of_noReset hr, hf, afterTake, if_pos ht]
  rfl

/-- A feed acts on the cleared state, or on what the step's take leaves. -/
theorem afterTake_of_noTake {s : State} (ht : (nextInput s).take = false) :
    afterTake s = clearOutputs (consumeInput s) := by
  rw [afterTake, ht, if_neg Bool.false_ne_true]

/-- Settles O6: a feed's key decodes by code and byte, and TAKE's answer is the state the feed acts on. -/
theorem stepRunsDecodedOperations : Obligations.StepRunsDecodedOperations := by
  intro s i rest hinputs hreset
  have hnext := nextInput_cons hinputs
  rw [← hnext] at hreset
  rw [← consumeInput_cons hinputs, ← hnext]
  refine ⟨?_, ?_, ?_, ?_⟩
  · rintro b op hf ht rfl
    rw [step_of_feed hreset hf, afterTake_of_noTake ht, decode_feedKey]
  · exact step_of_take hreset
  · rintro b op hf ht rfl
    rw [step_of_feed hreset hf, afterTake, if_pos ht, exec_take, andThen_next, decode_feedKey]
    rfl
  · intro hf ht
    rw [step_of_noReset hreset, hf, afterTake_of_noTake ht]
    rfl

/-! ### Placing one operation (log 12) -/

theorem keyOfWord_toNat {nbits : Nat} (h : 13 ≤ nbits) (k : Key) : keyOfWord nbits k.toNat = k := by
  have hk : k.toNat < 2 ^ nbits := lt_of_lt_of_le k.isLt (Nat.pow_le_pow_right (by decide) h)
  rw [keyOfWord, Nat.mod_eq_of_lt hk, BitVec.ofNat_toNat, BitVec.setWidth_eq]

theorem decodeTableWord_toNat {nbits : Nat} (h : 13 ≤ nbits) (k : Key) :
    decodeTableWord nbits k.toNat = some (decode k) := by
  have hk : k.toNat < 2 ^ nbits := lt_of_lt_of_le k.isLt (Nat.pow_le_pow_right (by decide) h)
  rw [decodeTableWord, Nat.mod_eq_of_lt hk, decodeWord, if_pos k.isLt, BitVec.ofNat_toNat, BitVec.setWidth_eq]

/-- Settles O7: a placed TAKE key is a take, a placed FEED key a feed with the key's own code and byte. -/
theorem placedKeyIsTheNextOperation : Obligations.PlacedKeyIsTheNextOperation := by
  intro s k nbits hbits
  refine ⟨decodeTableWord_toNat hbits k, ?_⟩
  rw [State.withFetchWord, keyOfWord_toNat hbits, placeKey, decode]
  cases Key.isTake k with
  | true => exact step_of_take (s := { s with inputs := Input.ofTake :: s.inputs }) rfl rfl rfl
  | false => exact step_of_ofByte (setSt (Key.code k) s) (Key.byte k) s.inputs

/-! ### One operation -/

/-- Settles O18: the write is outside the buffer. -/
theorem dataOutsideBufferFaults : Obligations.DataOutsideBufferFaults := by
  intro b s hlt hge
  rw [exec, execFeedData, if_pos (BitVec.lt_def.2 hlt), memWrite_eq_none.2 hge]

/-- A publish first and then a take: the take reads what the publish wrote. -/
theorem serveEvents_publishFirst_tail {s : State} {id : Byte} (hst : s.regs.st = St.tail)
    (hid : designatedId s.regs = some id) :
    serveEvents .publishFirst (Input.ofByteAndTake Config.tail) s =
      .next (setLatch Config.empty (driveTakeData id (setSt St.awaitHeadLow (emitFrame id (publish id s))))) := by
  have hfeed : serveFeed (some Config.tail) s = .next (setSt St.awaitHeadLow (emitFrame id (publish id s))) := by
    rw [serveFeed, hst, decode_feedKey, decodeFeed_tail, if_pos rfl]
    exact execFeedTailOk_of_designatedId hid
  show andThen (serveFeed (some Config.tail) s) (serveTake true) = _
  rw [hfeed, andThen_next, serveTake_eq]
  rfl

/-- Settles O26: the latch and `take_data` are the identifier's, written before the take. -/
theorem publishFirstOrderBypasses : Obligations.PublishFirstOrderBypasses := by
  intro s id hst hid
  have hdesignated : designatedId s.regs = some id := by rw [designatedId_eq, hid]; simp only [count_eq_zero_iff]
  exact gives_of_eq_next (serveEvents_publishFirst_tail hst hdesignated)

/-! ### A step cannot stop -/

/-- Only a DATA byte at an index outside the buffer has no next state. -/
theorem exec_answers {i : Instr} {s : State}
    (h : ∀ b, i = .feedData b → s.regs.rc < s.regs.len → s.regs.rc.toNat < Config.maxPayload) :
    ∃ t, exec i s = .next t := by
  cases i with
  | feedLenhi b =>
    rcases Nat.lt_or_ge Config.maxPayload (declaredLength b s.regs.lenLo).toNat with hgt | hle
    · exact ⟨_, execFeedLenhi_of_gt hgt⟩
    · exact ⟨_, execFeedLenhi_of_le hle⟩
  | feedData b =>
    by_cases hlt : s.regs.rc < s.regs.len
    · exact ⟨_, execFeedData_of_lt hlt (h b rfl hlt)⟩
    · exact ⟨_, execFeedData_of_ge b (BitVec.not_lt.1 hlt)⟩
  | feedTailOk => exact ⟨_, execFeedTailOk_of_designatedId (designatedId_eq _)⟩
  | _ => exact ⟨_, rfl⟩

theorem eq_data_of_decodeFeed {c : StCode} {b b' : Byte} (h : decodeFeed c b = .feedData b') : c = St.data :=
  (code_byte_of_decodeFeed h).1.trans (code_feedKey _ _)

/-- Only a DATA byte at an index outside the buffer stops a step. -/
theorem step_answers {s : State}
    (h : s.regs.st = St.data → s.regs.rc < s.regs.len → s.regs.rc.toNat < Config.maxPayload) :
    ∃ t, step s = .next t := by
  cases hr : (nextInput s).reset with
  | true => exact ⟨_, step_of_reset hr⟩
  | false =>
    cases hf : (nextInput s).feed with
    | none => exact ⟨afterTake s, by rw [step_of_noReset hr, hf]; rfl⟩
    | some b =>
      rw [step_of_feed hr hf]
      refine exec_answers fun b' hb' => ?_
      rw [afterTake_regs]
      exact h (eq_data_of_decodeFeed hb')

/-- Every step consumes its input. -/
theorem step_inputs {s t : State} (h : step s = .next t) : t.inputs = s.inputs.tail := by
  rcases step_effect h with ⟨-, rfl⟩ | ⟨-, -, rfl⟩ | ⟨b, -, -, hinputs, -⟩
  · simp
  · simp
  · exact hinputs

theorem rc_lt_maxPayload_of_len_le {r : Regs} (hlen : r.len.toNat ≤ Config.maxPayload) (h : r.rc < r.len) :
    r.rc.toNat < Config.maxPayload := lt_of_lt_of_le (BitVec.lt_def.1 h) hlen

/-- Settles O31: with INV1 an index below `len` is inside the buffer. -/
theorem noInputFaults : Obligations.NoInputFaults := by
  intro s hlen
  obtain ⟨t, ht⟩ := step_answers (s := s) fun _ => rc_lt_maxPayload_of_len_le hlen
  exact ⟨t, ht, step_inputs ht⟩

/-! ### What a feed writes -/

section

variable {b : Byte} {r r' : Regs} {o o' : Outputs} {c : StCode}

/-- R22: a feed leaves a legal code in `st`. -/
theorem FeedEffect.st_legal (h : FeedEffect b r o c r' o') : St.Legal r'.st := by
  cases h with
  | dataStored => dsimp only; split <;> decide
  | _ => dsimp only; decide

theorem FeedEffect.lenLo_cases (h : FeedEffect b r o c r' o') : r'.lenLo = r.lenLo ∨ c = St.lengthLow := by
  cases h with
  | lenLo => exact .inr rfl
  | _ => exact .inl rfl

theorem FeedEffect.len_cases (h : FeedEffect b r o c r' o') :
    r'.len = r.len ∨ c = St.lengthHigh ∧ r'.st = St.type := by
  cases h with
  | lenAccepted => exact .inr ⟨rfl, rfl⟩
  | _ => exact .inl rfl

theorem FeedEffect.rc_cases (h : FeedEffect b r o c r' o') :
    r'.rc = r.rc ∨ (c = St.awaitHeadHigh ∧ b = Config.headHigh ∧ r'.rc = 0#4) ∨
      (c = St.data ∧ r'.rc.toNat = r.rc.toNat + 1) := by
  cases h with
  | headHigh hb => exact .inr (.inl ⟨rfl, hb, rfl⟩)
  | dataStored hlt => exact .inr (.inr ⟨rfl, count_succ_toNat hlt⟩)
  | _ => exact .inl rfl

theorem FeedEffect.cksum_cases (h : FeedEffect b r o c r' o') :
    r'.cksum = r.cksum ∨ c = St.checksumLow ∨ c = St.checksumHigh := by
  cases h with
  | cksumLow => exact .inr (.inl rfl)
  | cksumHigh => exact .inr (.inr rfl)
  | _ => exact .inl rfl

theorem FeedEffect.payload_cases (h : FeedEffect b r o c r' o') :
    r'.payload = r.payload ∨
      c = St.data ∧ r.rc < r.len ∧ r'.payload = Memory.setCell r.payload r.rc.toNat b := by
  cases h with
  | dataStored hlt => exact .inr ⟨rfl, hlt, rfl⟩
  | _ => exact .inl rfl

/-- R36, R110: what a feed does to the latch and the ports. -/
theorem FeedEffect.latch_out (h : FeedEffect b r o c r' o') :
    r'.latch = (if o'.frameDone then o'.frameId else r.latch) ∧ o'.takeData = o.takeData ∧
      (o'.frameDone = true ↔ c = St.tail ∧ b = Config.tail) ∧ (o'.frameDone = false → o'.frameId = 0x00#8) := by
  cases h with
  | publishes id hb => simp [hb]
  | tailBad hb => simp [Outputs.withoutFrame, hb]
  | illegal _ hc => simp [Outputs.withoutFrame, (BitVec.ne_of_lt hc).symm]
  | _ => simp [Outputs.withoutFrame]

/-- R123: a feed that returns to `AwaitHeadLow` without a frame writes `st` alone. -/
theorem FeedEffect.returns (h : FeedEffect b r o c r' o') (hst : r'.st = St.awaitHeadLow)
    (hdone : o'.frameDone = false) : r' = { r with st := St.awaitHeadLow } ∧ o' = o.withoutFrame := by
  cases h with
  | scan | resync | lenRejected | tailBad | illegal => exact ⟨rfl, rfl⟩
  | publishes => cases hdone
  | dataStored => dsimp only at hst; split at hst <;> cases hst
  | _ => cases hst

end

/-- Settles O32: without a feed a step is its take, and the code a feed or a reset leaves is one of the 11. -/
theorem onlyFeedOrResetWritesSt : Obligations.OnlyFeedOrResetWritesSt := by
  intro s t h
  rcases step_effect h with ⟨hr, rfl⟩ | ⟨hr, hf, rfl⟩ | ⟨b, hr, hf, -, heffect⟩
  · exact ⟨fun hr' => by simp [hr] at hr', fun _ => by simp [resetRegs]⟩
  · exact ⟨fun _ _ => afterTake_regs s, fun h' => by simp [hr, hf] at h'⟩
  · exact ⟨fun _ hf' => by simp [hf] at hf', fun _ => BitVec.le_def.1 heffect.st_legal⟩

/-- Settles O33: a take writes none of these registers, and each of them has its own cases in a feed. -/
theorem eachRegisterHasOnlyItsWriters : Obligations.EachRegisterHasOnlyItsWriters := by
  intro s t h hr
  rcases step_effect h with ⟨hr', -⟩ | ⟨-, -, rfl⟩ | ⟨b, -, hf, -, heffect⟩
  · simp [hr] at hr'
  · simp
  · have hlenLo := heffect.lenLo_cases
    have hlen := heffect.len_cases
    have hrc := heffect.rc_cases
    have hcksum := heffect.cksum_cases
    have hpayload := heffect.payload_cases
    rw [afterTake_regs] at hlenLo hlen hrc hcksum hpayload
    refine ⟨hlenLo.resolve_left, hlen.resolve_left, fun hne => ?_, hcksum.resolve_left, fun a hne => ?_⟩
    · rw [hf]
      exact (hrc.resolve_left hne).imp (fun ⟨hst, hb, hzero⟩ => ⟨hst, congrArg some hb, hzero⟩) id
    · obtain ⟨hst, hlt, hp⟩ := hpayload.resolve_left fun hp => hne (congrArg (Memory.cell · a) hp)
      rw [hp, cell_setCell] at hne ⊢
      have ha : a = s.regs.rc.toNat := by by_contra ha; exact hne (if_neg ha)
      exact ⟨hst, ha, hlt, by rw [hf, if_pos ha]⟩

/-- Settles O34: without a take the state the feed acts on has the old registers. -/
theorem abortWritesOnlySt : Obligations.AbortWritesOnlySt := by
  intro s t b rest hinputs hstep hst hdone
  have hnext := nextInput_cons hinputs
  have hr : (nextInput s).reset = false := by rw [hnext]; rfl
  have hf : (nextInput s).feed = some b := by rw [hnext]; rfl
  have ht : (nextInput s).take = false := by rw [hnext]; rfl
  rw [step_of_feed hr hf, afterTake_of_noTake ht] at hstep
  exact (feedEffect_of_exec hstep).returns hst hdone

/-- Settles O27: the take clears the latch before the feed, which keeps it unless it publishes. -/
theorem latchIsLastWriteCell : Obligations.LatchIsLastWriteCell := by
  intro s t h
  rcases step_effect h with ⟨hr, rfl⟩ | ⟨hr, hf, rfl⟩ | ⟨b, hr, hf, -, heffect⟩
  · exact ⟨fun _ => ⟨rfl, rfl⟩, fun hr' => by simp [hr] at hr'⟩
  · refine ⟨fun hr' => by simp [hr] at hr', fun _ => ?_⟩
    simp [hf, Outputs.quiet]
  · refine ⟨fun hr' => by simp [hr] at hr', fun _ => ?_⟩
    obtain ⟨hlatch, htake, hdone, hid⟩ := heffect.latch_out
    rw [afterTake_regs] at hlatch
    rw [afterTake_out] at htake
    rw [hf, Option.some_inj]
    exact ⟨hlatch, htake, hdone, hid⟩

/-! ### The invariants of 10_state.md R34, one lemma per phase of a frame -/

section

variable {r : Regs} (hlen : r.len.toNat ≤ Config.maxPayload) (hpayload : Memory.wf r.payload)
include hlen hpayload

theorem Inv.of_awaiting (hrc : r.rc ≤ r.len) (hst : r.st ≤ St.awaitHeadHigh) : Inv r where
  len_le := hlen
  rc_le_len := hrc
  data := by bv_omega
  header := by bv_omega
  checksum := by bv_omega
  legal := by bv_omega
  payload := hpayload

theorem Inv.of_header (hrc : r.rc = 0#4) (hlow : St.lengthLow ≤ r.st) (hhigh : r.st ≤ St.sequence) : Inv r where
  len_le := hlen
  rc_le_len := by bv_omega
  data := by bv_omega
  header _ := hrc
  checksum := by bv_omega
  legal := by bv_omega
  payload := hpayload

theorem Inv.of_data (hrc : r.rc < r.len) (hst : r.st = St.data) : Inv r where
  len_le := hlen
  rc_le_len := by bv_omega
  data _ := hrc
  header := by bv_omega
  checksum := by bv_omega
  legal := by bv_omega
  payload := hpayload

theorem Inv.of_checksum (hrc : r.rc = r.len) (hlow : St.checksumLow ≤ r.st) (hhigh : r.st ≤ St.tail) : Inv r where
  len_le := hlen
  rc_le_len := by bv_omega
  data := by bv_omega
  header := by bv_omega
  checksum _ := hrc
  legal := hhigh
  payload := hpayload

end

/-- No invariant reads the latch. -/
theorem Inv.withLatch {r : Regs} (h : Inv r) (l : Byte) : Inv { r with latch := l } :=
  ⟨h.len_le, h.rc_le_len, h.data, h.header, h.checksum, h.legal, h.payload⟩

theorem count_lt_of_succ {n m : Count} (h : n < m) (hne : n + 1#4 ≠ m) : n + 1#4 < m := by bv_omega

/-- R34: every feed keeps the invariants. -/
theorem FeedEffect.inv {b : Byte} {r r' : Regs} {o o' : Outputs} {c : StCode} (h : FeedEffect b r o c r' o')
    (hc : r.st = c) (hr : Inv r) : Inv r' := by
  obtain ⟨hlen, hle, hdata, hheader, hchecksum, -, hpayload⟩ := hr
  rw [hc] at hdata hheader hchecksum
  cases h with
  | headLow | scan | rehead | resync | lenRejected | tailBad | illegal | publishes =>
    exact .of_awaiting hlen hpayload hle (by dsimp only; decide)
  | headHigh => exact .of_header hlen hpayload rfl (by dsimp only; decide) (by dsimp only; decide)
  | lenLo | type | command =>
    exact .of_header hlen hpayload (hheader (by decide)) (by dsimp only; decide) (by dsimp only; decide)
  | lenAccepted hl =>
    refine .of_header ?_ hpayload (hheader (by decide)) (by dsimp only; decide) (by dsimp only; decide)
    exact (lengthCount_toNat hl).le.trans hl
  | sequenceData hpos =>
    exact .of_data hlen hpayload ((hheader (by decide)).symm ▸ hpos) rfl
  | sequenceEmpty hzero =>
    have hrc := (hheader (by decide)).trans hzero.symm
    exact .of_checksum hlen hpayload hrc (by dsimp only; decide) (by dsimp only; decide)
  | dataStored hlt hi =>
    have hwf := wf_setCell hpayload hi b
    by_cases hlast : r.rc + 1#4 = r.len
    · rw [if_pos hlast]
      exact .of_checksum hlen hwf hlast (by dsimp only; decide) (by dsimp only; decide)
    · rw [if_neg hlast]
      exact .of_data hlen hwf (count_lt_of_succ hlt hlast) rfl
  | dataDone hge => exact absurd (hdata rfl) (BitVec.not_lt.2 hge)
  | cksumLow | cksumHigh =>
    exact .of_checksum hlen hpayload (hchecksum (by decide)) (by dsimp only; decide) (by dsimp only; decide)

/-- Settles O35: the decoder waits, with nothing counted and an empty payload list. -/
theorem resetMeetsInvariants : Obligations.ResetMeetsInvariants :=
  .of_awaiting (by decide) wf_nil (by decide) (by decide)

/-- Settles O36: INV1 lets every step answer, and reset, take and feed each keep the invariants. -/
theorem everyStepKeepsInvariants : Obligations.EveryStepKeepsInvariants := by
  intro s hs
  obtain ⟨t, ht⟩ := step_answers (s := s) fun _ => rc_lt_maxPayload_of_len_le hs.len_le
  refine ⟨t, ht, ?_⟩
  rcases step_effect ht with ⟨-, rfl⟩ | ⟨-, -, rfl⟩ | ⟨b, -, -, -, heffect⟩
  · exact .of_awaiting (Nat.zero_le _) hs.payload (BitVec.le_refl _) (BitVec.le_def.2 (Nat.zero_le _))
  · rw [afterTake_regs]
    exact hs.withLatch _
  · rw [afterTake_regs] at heffect
    exact heffect.inv rfl (hs.withLatch _)

end Sys2Proof.Machine

/-! Short runs on delivered bytes: what a run of k steps answers, one step at a time. -/

namespace Sys2Proof.Machine

/-- k steps from s drive these outputs and end with these registers and pending inputs. -/
def Runs (k : Nat) (s : State) (outs : List Outputs) (r : Regs) (inputs : List Input) : Prop :=
  ∃ t : State, runSteps k s = .next (outs, t) ∧ t.regs = r ∧ t.inputs = inputs

theorem Runs.zero (s : State) : Runs 0 s [] s.regs s.inputs := ⟨s, rfl, rfl, rfl⟩

theorem runSteps_cons {k : Nat} {s t u : State} {outs : List Outputs} (hstep : step s = .next t)
    (hrun : runSteps k t = .next (outs, u)) : runSteps (k + 1) s = .next (t.out :: outs, u) := by
  rw [runSteps, hstep, andThen_next, hrun, andThen_next]

theorem Runs.cons {k : Nat} {s : State} {r r' : Regs} {out : Outputs} {outs : List Outputs} {is is' : List Input}
    (hstep : Gives (step s) r out is) (hrun : ∀ t : State, t.regs = r → t.inputs = is → Runs k t outs r' is') :
    Runs (k + 1) s (out :: outs) r' is' := by
  obtain ⟨t, ht, hregs, rfl, hinputs⟩ := hstep
  obtain ⟨u, hu, hr⟩ := hrun t hregs hinputs
  exact ⟨u, runSteps_cons ht hu, hr⟩

theorem Runs.one {s : State} {r : Regs} {out : Outputs} {is : List Input} (hstep : Gives (step s) r out is) :
    Runs 1 s [out] r is :=
  .cons hstep fun t hregs hinputs => hregs ▸ hinputs ▸ .zero t

theorem runSteps_add {m : Nat} {s t u : State} {o₁ o₂ : List Outputs} {n : Nat} (h₁ : runSteps m s = .next (o₁, t))
    (h₂ : runSteps n t = .next (o₂, u)) : runSteps (m + n) s = .next (o₁ ++ o₂, u) := by
  induction m generalizing s o₁ with
  | zero => cases h₁; rw [Nat.zero_add]; exact h₂
  | succ m ih =>
    rw [runSteps] at h₁
    obtain ⟨s', hstep, hrest⟩ := andThen_eq_next.1 h₁
    obtain ⟨⟨outs, t'⟩, hrun, heq⟩ := andThen_eq_next.1 hrest
    cases heq
    rw [Nat.add_right_comm]
    exact runSteps_cons hstep (ih hrun)

/-! ### One step on a delivered byte or take -/

theorem step_of_inputs_ofByte {s : State} {b : Byte} {rest : List Input} (h : s.inputs = Input.ofByte b :: rest) :
    step s = exec (decodeFeed s.regs.st b) (clearOutputs { s with inputs := rest }) := by
  rw [← step_of_ofByte s b rest, ← h]

/-- A step on a byte alone whose operation emits no frame. -/
theorem gives_step_of_ofByte {s : State} {b : Byte} {rest : List Input} {c : StCode} {i : Instr} {r : Regs}
    (hinputs : s.inputs = Input.ofByte b :: rest) (hst : s.regs.st = c) (hdecode : decode (feedKey c b) = i)
    (hexec : Gives (exec i (clearOutputs { s with inputs := rest })) r Outputs.quiet rest) :
    Gives (step s) r Outputs.quiet rest := by
  rwa [step_of_inputs_ofByte hinputs, ← decode_feedKey, hst, hdecode]

/-- A step on a take alone. -/
theorem gives_step_of_ofTake {s : State} {rest : List Input} (hinputs : s.inputs = Input.ofTake :: rest) :
    Gives (step s) { s.regs with latch := 0x00#8 } { Outputs.quiet with takeData := s.regs.latch } rest := by
  have hnext := nextInput_cons hinputs
  rw [step_of_take (by rw [hnext]; rfl) (by rw [hnext]; rfl) (by rw [hnext]; rfl), consumeInput_cons hinputs]
  exact takeReadsAndClears.2 _

/-- Settles O28: the second take reads what the first one left. -/
theorem twoTakesReturnValueThenZero : Obligations.TwoTakesReturnValueThenZero := by
  intro s rest hinputs
  refine Runs.cons (gives_step_of_ofTake hinputs) fun t hregs hrest => ?_
  have := Runs.one (gives_step_of_ofTake hrest)
  rwa [hregs] at this

/-- Settles O42: the byte after the head-low byte leads back to `AwaitHeadLow`, where the run began. -/
theorem garbageBetweenHeadBytes : Obligations.GarbageBetweenHeadBytes := by
  intro s g rest hst hlow hhigh hinputs
  obtain ⟨hdecode, -, hhead⟩ := headLowFoundWhileScanning
  obtain ⟨hdecode', hresync⟩ := badHeadHighResynchronizes g hlow hhigh
  refine Runs.cons (gives_step_of_ofByte hinputs hst hdecode (hhead _)) fun t hregs hrest => Runs.one ?_
  have hstep := gives_step_of_ofByte hrest (congrArg Regs.st hregs) hdecode' (hresync _)
  rwa [clearOutputs_regs, hregs, clearOutputs_regs, regs_with_st_eq_self hst] at hstep

/-- Settles O43: the head clears `rc`, the low length byte is held, the high one rejected. -/
theorem oversizedLengthResynchronizes : Obligations.OversizedLengthResynchronizes := by
  intro s lo hi rest hst hlong hinputs
  obtain ⟨hdecode₁, -, hhead⟩ := headLowFoundWhileScanning
  obtain ⟨hdecode₂, -, hstart⟩ := headHighStartsFrameAttempt
  obtain ⟨hdecode₃, hheld⟩ := lengthLowIsHeld lo
  obtain ⟨hdecode₄, hlength⟩ := lengthHighAcceptsUpToEight hi
  show Runs 4 s [Outputs.quiet, Outputs.quiet, Outputs.quiet, Outputs.quiet] { s.regs with rc := 0#4, lenLo := lo } rest
  refine Runs.cons (gives_step_of_ofByte hinputs hst hdecode₁ (hhead _)) fun t₁ hregs₁ hrest₁ => ?_
  have hstep₂ := gives_step_of_ofByte (c := St.awaitHeadHigh) hrest₁ (congrArg Regs.st hregs₁) hdecode₂ (hstart _)
  refine Runs.cons hstep₂ fun t₂ hregs₂ hrest₂ => ?_
  refine Runs.cons (gives_step_of_ofByte hrest₂ (congrArg Regs.st hregs₂) hdecode₃ (hheld _)) fun t₃ hregs₃ hrest₃ =>
    Runs.one ?_
  have hreject := (hlength (clearOutputs { t₃ with inputs := rest })).2 (by simpa [hregs₃] using hlong)
  have hstep := gives_step_of_ofByte hrest₃ (congrArg Regs.st hregs₃) hdecode₄ hreject
  simpa [hregs₃, hregs₂, hregs₁, hst] using hstep

/-- A byte other than 0xF4 fed while scanning changes no register. -/
theorem gives_step_of_scan {s : State} {b : Byte} {rest : List Input} (hinputs : s.inputs = Input.ofByte b :: rest)
    (hst : s.regs.st = St.awaitHeadLow) (hb : b ≠ Config.headLow) : Gives (step s) s.regs Outputs.quiet rest := by
  obtain ⟨hdecode, hscan⟩ := otherByteWhileScanning b hb
  exact gives_step_of_ofByte hinputs hst hdecode ((hscan _).2 hst)

/-- Settles O44: 0xF4 is rejected in both states (as a length it is at least 0xF400), and 0xF5 is then scanned past. -/
theorem rejectingByteStartsNoHead : Obligations.RejectingByteStartsNoHead := by
  intro s rest hst hinputs
  have hreject : Gives (step s) { s.regs with st := St.awaitHeadLow } Outputs.quiet (Input.ofByte 0xF5#8 :: rest) := by
    rcases hst with hst | hst
    · obtain ⟨hdecode, hlength⟩ := lengthHighAcceptsUpToEight 0xF4#8
      exact gives_step_of_ofByte hinputs hst hdecode ((hlength _).2 (Nat.lt_add_right _ (by decide)))
    · obtain ⟨hdecode, hbad⟩ := badTailDropsFrame 0xF4#8 (by decide)
      exact gives_step_of_ofByte hinputs hst hdecode (hbad _)
  refine Runs.cons hreject fun t hregs hrest => Runs.one ?_
  exact hregs ▸ gives_step_of_scan hrest (by rw [hregs]) (by decide)

/-- R91 on a delivered byte: it is stored at `rc`, and `st` stays while DATA bytes are missing. -/
theorem gives_step_of_data {s : State} {b : Byte} {rest : List Input} (hinputs : s.inputs = Input.ofByte b :: rest)
    (hst : s.regs.st = St.data) (hlt : s.regs.rc < s.regs.len) (hi : s.regs.rc.toNat < Config.maxPayload) :
    Gives (step s)
      { s.regs with
          payload := Memory.setCell s.regs.payload s.regs.rc.toNat b, rc := s.regs.rc + 1#4,
          st := if s.regs.rc + 1#4 = s.regs.len then St.checksumLow else St.data }
      Outputs.quiet rest :=
  gives_step_of_ofByte hinputs hst (decode_feedKey _ b)
    (gives_of_eq_next (execFeedData_of_lt (s := clearOutputs { s with inputs := rest }) hlt hi))

/-- R144, from any count on: `st` is `ChecksumLow` as soon as no DATA byte is missing. -/
theorem runs_of_data_bytes (bytes : List Byte) (s : State) (rest : List Input)
    (hst : s.regs.st = if s.regs.rc = s.regs.len then St.checksumLow else St.data)
    (hlen : s.regs.len.toNat ≤ Config.maxPayload) (hcount : s.regs.rc.toNat + bytes.length = s.regs.len.toNat)
    (hinputs : s.inputs = feeds bytes ++ rest) :
    ∃ m : Memory,
      Runs bytes.length s (List.replicate bytes.length Outputs.quiet)
        { s.regs with st := St.checksumLow, rc := s.regs.len, payload := m } rest ∧
      (∀ j : Nat, j < bytes.length → bytes[j]? = some (Memory.cell m (s.regs.rc.toNat + j))) ∧
      ∀ a : Nat, a < s.regs.rc.toNat ∨ s.regs.len.toNat ≤ a → Memory.cell m a = Memory.cell s.regs.payload a := by
  induction bytes generalizing s with
  | nil =>
    have hrc : s.regs.rc = s.regs.len := BitVec.eq_of_toNat_eq hcount
    rw [if_pos hrc] at hst
    refine ⟨s.regs.payload, ?_, by simp, fun _ _ => rfl⟩
    rw [← hst, ← hrc, ← (show s.inputs = rest from hinputs)]
    exact .zero s
  | cons b bytes ih =>
    rw [List.length_cons] at hcount
    have hlt : s.regs.rc < s.regs.len := BitVec.lt_def.2 (by omega)
    have hrc := count_succ_toNat hlt
    rw [if_neg (BitVec.ne_of_lt hlt)] at hst
    have hstep := gives_step_of_data hinputs hst hlt (rc_lt_maxPayload_of_len_le hlen hlt)
    obtain ⟨t, ht, hregs, hout, hrest⟩ := hstep
    obtain ⟨m, ⟨u, hrun, huregs, huinputs⟩, hstored, hother⟩ :=
      ih t (by simp [hregs]) (by simpa [hregs] using hlen) (by simp [hregs, hrc]; omega) hrest
    simp only [hregs, hrc] at hstored hother huregs
    refine ⟨m, ⟨u, ?_, huregs, huinputs⟩, ?_, ?_⟩
    · have hruns := runSteps_cons ht hrun
      rwa [hout] at hruns
    · rintro (_ | j) hj
      · simp [hother s.regs.rc.toNat (by omega)]
      · rw [List.getElem?_cons_succ, hstored j (by simpa using hj)]
        congr 2
        omega
    · intro a ha
      rw [hother a (by omega), cell_setCell_other _ _ (by omega)]

/-- Settles O45: a DATA byte is missing, so `st` is `Data`. -/
theorem truncatedFrameAbsorbsBytes : Obligations.TruncatedFrameAbsorbsBytes := by
  intro s bytes rest hst hlen hlt hcount hinputs
  have hne : s.regs.rc ≠ s.regs.len := BitVec.ne_of_lt (BitVec.lt_def.2 hlt)
  obtain ⟨m, ⟨u, hrun, hregs, hrest⟩, hstored, hother⟩ :=
    runs_of_data_bytes bytes s rest (by rw [if_neg hne, hst]) hlen hcount hinputs
  exact ⟨m, u, hrun, hregs, hrest, hstored, hother⟩

end Sys2Proof.Machine

/-! The bytes of the frame being read (40_frame_decoder.md R97, R98): in each state the decoder has read a beginning of
a frame, and the registers hold what those bytes say. -/

namespace Sys2Proof.Machine

/-- The first n entries of the payload buffer. -/
def storedData (m : Memory) (n : Count) : List Byte := (List.range n.toNat).map (Memory.cell m)

/-- The head and header bytes of a frame that declares the length `len`. -/
def headerBytes (len : Count) (t c q : Byte) : List Byte :=
  [Config.headLow, Config.headHigh, BitVec.ofNat 8 len.toNat, 0x00#8, t, c, q]

/-- `Reading a r`: with the registers r the decoder has read the bytes a of a frame, and r says of them what the rules
that wrote it say. From `LengthLow` to `Tail`, a is the current frame attempt. -/
inductive Reading : List Byte → Regs → Prop
  | awaitHeadLow {r : Regs} : r.st = St.awaitHeadLow → Reading [] r
  | awaitHeadHigh {r : Regs} : r.st = St.awaitHeadHigh → Reading [Config.headLow] r
  | lengthLow {r : Regs} : r.st = St.lengthLow → r.rc = 0#4 → Reading [Config.headLow, Config.headHigh] r
  | lengthHigh {r : Regs} : r.st = St.lengthHigh → r.rc = 0#4 →
      Reading [Config.headLow, Config.headHigh, r.lenLo] r
  | type {r : Regs} : r.st = St.type → r.rc = 0#4 → r.len.toNat ≤ Config.maxPayload →
      Reading [Config.headLow, Config.headHigh, BitVec.ofNat 8 r.len.toNat, 0x00#8] r
  | command {r : Regs} (t : Byte) : r.st = St.command → r.rc = 0#4 → r.len.toNat ≤ Config.maxPayload →
      Reading [Config.headLow, Config.headHigh, BitVec.ofNat 8 r.len.toNat, 0x00#8, t] r
  | sequence {r : Regs} (t c : Byte) : r.st = St.sequence → r.rc = 0#4 → r.len.toNat ≤ Config.maxPayload →
      Reading [Config.headLow, Config.headHigh, BitVec.ofNat 8 r.len.toNat, 0x00#8, t, c] r
  | data {r : Regs} (t c q : Byte) : r.st = St.data → r.rc < r.len → r.len.toNat ≤ Config.maxPayload →
      Reading (headerBytes r.len t c q ++ storedData r.payload r.rc) r
  | checksumLow {r : Regs} (t c q : Byte) : r.st = St.checksumLow → r.rc = r.len → r.len.toNat ≤ Config.maxPayload →
      Reading (headerBytes r.len t c q ++ storedData r.payload r.rc) r
  | checksumHigh {r : Regs} (t c q : Byte) : r.st = St.checksumHigh → r.rc = r.len →
      r.len.toNat ≤ Config.maxPayload →
      Reading (headerBytes r.len t c q ++ storedData r.payload r.rc ++ [r.cksum.extractLsb' 0 8]) r
  | tail {r : Regs} (t c q : Byte) : r.st = St.tail → r.rc = r.len → r.len.toNat ≤ Config.maxPayload →
      Reading
        (headerBytes r.len t c q ++ storedData r.payload r.rc ++ [r.cksum.extractLsb' 0 8, r.cksum.extractLsb' 8 8]) r

/-! ### The stored DATA bytes -/

@[simp] theorem length_storedData (m : Memory) (n : Count) : (storedData m n).length = n.toNat := by simp [storedData]

theorem getElem?_storedData {m : Memory} {n : Count} {j : Nat} (h : j < n.toNat) :
    (storedData m n)[j]? = some (Memory.cell m j) := by simp [storedData, h]

@[simp] theorem storedData_zero (m : Memory) : storedData m 0#4 = [] := rfl

/-- The designated identifier is the first DATA byte, or 0x00 for none (R94). -/
theorem headD_storedData (m : Memory) (n : Count) :
    (storedData m n).headD 0x00#8 = if n = 0#4 then 0x00#8 else Memory.cell m 0 := by
  split
  · next hzero => rw [hzero, storedData_zero]; rfl
  · next hne =>
    have hpos : 0 < n.toNat := Nat.pos_of_ne_zero (mt (count_eq_zero_iff n).2 hne)
    rw [List.headD_eq_head?_getD, List.head?_eq_getElem?, getElem?_storedData hpos]
    rfl

/-- A byte stored at the count follows those stored before it. -/
theorem storedData_setCell (m : Memory) {n n' : Count} (b : Byte) (h : n'.toNat = n.toNat + 1) :
    storedData (Memory.setCell m n.toNat b) n' = storedData m n ++ [b] := by
  have hbefore : ∀ j ∈ List.range n.toNat, Memory.cell (Memory.setCell m n.toNat b) j = Memory.cell m j :=
    fun j hj => cell_setCell_other m b (Nat.ne_of_lt (List.mem_range.1 hj))
  rw [storedData, storedData, h, List.range_succ, List.map_append, List.map_congr_left hbefore, List.map_singleton,
    cell_setCell_same]

/-! ### An accepted length -/

/-- A length of 8 or less has the high byte 0, and the low byte is the count (R87). -/
theorem length_bytes {hi lo : Byte} (h : (declaredLength hi lo).toNat ≤ Config.maxPayload) :
    hi = 0x00#8 ∧ lo = BitVec.ofNat 8 (lengthCount (declaredLength hi lo)).toNat := by
  rw [lengthCount_toNat h]
  rw [declaredLength_toNat] at h ⊢
  have hhi : hi.toNat = 0 := by have : Config.maxPayload = 8 := rfl; omega
  refine ⟨BitVec.eq_of_toNat_eq hhi, ?_⟩
  rw [hhi, Nat.zero_mul, Nat.zero_add, BitVec.ofNat_toNat, BitVec.setWidth_eq]


/-! ### Beginnings of a frame -/

/-- Some frame of at most 8 DATA bytes begins with these bytes. -/
def BeginsFrame (a : List Byte) : Prop :=
  ∃ (t c q : Byte) (data : List Byte) (k : Half), data.length ≤ Config.maxPayload ∧ a <+: frameBytes t c q data k

/-- A frame is its header, its DATA bytes and its last three bytes (R60, R72). -/
theorem frameBytes_eq {len : Count} {data : List Byte} (h : data.length = len.toNat) (t c q : Byte) (k : Half) :
    frameBytes t c q data k =
      headerBytes len t c q ++ data ++ [k.extractLsb' 0 8, k.extractLsb' 8 8, Config.tail] := by
  rw [frameBytes, headerBytes, h]

theorem not_beginsFrame_of_scan {b : Byte} (hb : b ≠ Config.headLow) : ¬ BeginsFrame [b] := by
  rintro ⟨t, c, q, data, k, -, h⟩
  exact hb (List.cons_prefix_cons.1 h).1

theorem not_beginsFrame_of_badHead {b : Byte} (hb : b ≠ Config.headHigh) : ¬ BeginsFrame [Config.headLow, b] := by
  rintro ⟨t, c, q, data, k, -, h⟩
  exact hb (List.cons_prefix_cons.1 (List.cons_prefix_cons.1 h).2).1

/-- A length byte of a frame tells how many DATA bytes it has. -/
theorem length_eq_of_lengthByte {m n : Nat} (hm : m ≤ Config.maxPayload) (hn : n ≤ Config.maxPayload)
    (h : BitVec.ofNat 8 m = BitVec.ofNat 8 n) : m = n := by
  have hmod : m % 2 ^ 8 = n % 2 ^ 8 := by simpa only [BitVec.toNat_ofNat] using congrArg BitVec.toNat h
  have : Config.maxPayload = 8 := rfl
  omega

theorem not_beginsFrame_of_overlong {lo hi : Byte} (h : Config.maxPayload < (declaredLength hi lo).toNat) :
    ¬ BeginsFrame [Config.headLow, Config.headHigh, lo, hi] := by
  rintro ⟨t, c, q, data, k, hdata, hbegins⟩
  simp only [frameBytes, List.cons_append, List.cons_prefix_cons] at hbegins
  obtain ⟨-, -, rfl, rfl, -⟩ := hbegins
  rw [declaredLength_toNat] at h
  have : Config.maxPayload = 8 := rfl
  simp only [BitVec.toNat_ofNat] at h
  omega

theorem not_beginsFrame_of_badTail {len : Count} {d : List Byte} {t c q x y b : Byte}
    (hlen : len.toNat ≤ Config.maxPayload) (hd : d.length = len.toNat) (hb : b ≠ Config.tail) :
    ¬ BeginsFrame (headerBytes len t c q ++ d ++ [x, y] ++ [b]) := by
  rintro ⟨t', c', q', data, k, hdata, hbegins⟩
  simp only [frameBytes, headerBytes, List.cons_append, List.nil_append, List.append_assoc,
    List.cons_prefix_cons] at hbegins
  obtain ⟨-, -, hlength, -, -, -, -, hrest⟩ := hbegins
  have hdd : d.length = data.length := hd.trans (length_eq_of_lengthByte hlen hdata hlength)
  have heq := hrest.eq_of_length (by simp [hdd])
  obtain ⟨-, -, htail⟩ : x = _ ∧ y = _ ∧ b = Config.tail := by simpa using (List.append_inj heq hdd).2
  exact hb htail

/-! ### A feed -/

/-- What a feed of b does to the bytes a read so far: b joins them; or a and b begin no frame, and of them b alone is
kept (0xF4 after 0xF4) or nothing; or b completes a frame, which is published. -/
inductive ReadingStep (b : Byte) (a : List Byte) (r' : Regs) (o' : Outputs) : Prop
  | grows : Reading (a ++ [b]) r' → o'.frameDone = false → ReadingStep b a r' o'
  | drops {a' : List Byte} : ¬ BeginsFrame (a ++ [b]) → Reading a' r' → a' <:+ [b] → o'.frameDone = false →
      ReadingStep b a r' o'
  | completes (t c q : Byte) : a ++ [b] = frameBytes t c q (storedData r'.payload r'.rc) r'.cksum → r'.rc = r'.len →
      r'.len.toNat ≤ Config.maxPayload → r'.st = St.awaitHeadLow → o'.frameDone = true →
      o'.frameId = (storedData r'.payload r'.rc).headD 0x00#8 → ReadingStep b a r' o'

/-- R81 to R96 on the bytes read, state by state: only an overlong length and a bad tail drop an attempt. -/
theorem Reading.feed {a : List Byte} {b : Byte} {r r' : Regs} {o o' : Outputs} (ha : Reading a r)
    (h : FeedEffect b r o r.st r' o') : ReadingStep b a r' o' := by
  cases ha with
  | awaitHeadLow hst =>
    rw [hst] at h
    cases h with
    | headLow hb => exact .grows (hb ▸ .awaitHeadHigh rfl) rfl
    | scan hb => exact .drops (not_beginsFrame_of_scan hb) (.awaitHeadLow rfl) (List.nil_suffix) rfl
    | illegal _ hc => exact absurd hc (by decide)
  | awaitHeadHigh hst =>
    rw [hst] at h
    cases h with
    | headHigh hb => exact .grows (hb ▸ .lengthLow rfl rfl) rfl
    | rehead hb =>
      exact .drops (not_beginsFrame_of_badHead (hb ▸ by decide)) (hb ▸ .awaitHeadHigh rfl) List.suffix_rfl rfl
    | resync hb => exact .drops (not_beginsFrame_of_badHead hb) (.awaitHeadLow rfl) (List.nil_suffix) rfl
    | illegal _ hc => exact absurd hc (by decide)
  | lengthLow hst hrc =>
    rw [hst] at h
    cases h with
    | lenLo => exact .grows (.lengthHigh (r := { r with lenLo := b, st := St.lengthHigh }) rfl hrc) rfl
    | illegal _ hc => exact absurd hc (by decide)
  | lengthHigh hst hrc =>
    rw [hst] at h
    cases h with
    | lenAccepted hl =>
      obtain ⟨hb, hlo⟩ := length_bytes hl
      refine .grows ?_ rfl
      have := Reading.type (r := { r with len := lengthCount (declaredLength b r.lenLo), st := St.type }) rfl hrc
        ((lengthCount_toNat hl).le.trans hl)
      rwa [← hlo, ← hb] at this
    | lenRejected hl => exact .drops (not_beginsFrame_of_overlong hl) (.awaitHeadLow rfl) (List.nil_suffix) rfl
    | illegal _ hc => exact absurd hc (by decide)
  | type hst hrc hlen =>
    rw [hst] at h
    cases h with
    | type => exact .grows (.command (r := { r with st := St.command }) b rfl hrc hlen) rfl
    | illegal _ hc => exact absurd hc (by decide)
  | command t hst hrc hlen =>
    rw [hst] at h
    cases h with
    | command => exact .grows (.sequence (r := { r with st := St.sequence }) t b rfl hrc hlen) rfl
    | illegal _ hc => exact absurd hc (by decide)
  | sequence t c hst hrc hlen =>
    rw [hst] at h
    have hnone : storedData r.payload r.rc = [] := by rw [hrc, storedData_zero]
    cases h with
    | sequenceData hpos =>
      have := Reading.data (r := { r with st := St.data }) t c b rfl (hrc ▸ hpos) hlen
      exact .grows (by rwa [hnone] at this) rfl
    | sequenceEmpty hzero =>
      have := Reading.checksumLow (r := { r with st := St.checksumLow }) t c b rfl (hrc.trans hzero.symm) hlen
      exact .grows (by rwa [hnone] at this) rfl
    | illegal _ hc => exact absurd hc (by decide)
  | data t c q hst hrc hlen =>
    rw [hst] at h
    cases h with
    | dataStored hlt =>
      have hcount := count_succ_toNat hlt
      refine .grows ?_ rfl
      rw [List.append_assoc, ← storedData_setCell _ b hcount]
      by_cases hlast : r.rc + 1#4 = r.len
      · rw [if_pos hlast]
        exact .checksumLow (r := { r with payload := _, rc := _, st := _ }) t c q rfl hlast hlen
      · rw [if_neg hlast]
        exact .data (r := { r with payload := _, rc := _, st := _ }) t c q rfl (count_lt_of_succ hlt hlast) hlen
    | dataDone hge => exact absurd hrc (BitVec.not_lt.2 hge)
    | illegal _ hc => exact absurd hc (by decide)
  | checksumLow t c q hst hrc hlen =>
    rw [hst] at h
    cases h with
    | cksumLow =>
      have :=
        Reading.checksumHigh (r := { r with cksum := withCksumLow r.cksum b, st := St.checksumHigh }) t c q rfl hrc hlen
      exact .grows (by rwa [withCksumLow_low] at this) rfl
    | illegal _ hc => exact absurd hc (by decide)
  | checksumHigh t c q hst hrc hlen =>
    rw [hst] at h
    cases h with
    | cksumHigh =>
      have := Reading.tail (r := { r with cksum := withCksumHigh r.cksum b, st := St.tail }) t c q rfl hrc hlen
      rw [withCksumHigh_low, withCksumHigh_high] at this
      exact .grows (by rwa [List.append_assoc]) rfl
    | illegal _ hc => exact absurd hc (by decide)
  | tail t c q hst hrc hlen =>
    rw [hst] at h
    have hlength : (storedData r.payload r.rc).length = r.len.toNat := by rw [length_storedData, hrc]
    cases h with
    | publishes id hb hid =>
      refine .completes t c q ?_ hrc hlen rfl rfl ?_
      · rw [hb, frameBytes_eq hlength, List.append_assoc]
        rfl
      · rw [headD_storedData, hrc, ← hid]
    | tailBad hb => exact .drops (not_beginsFrame_of_badTail hlen hlength hb) (.awaitHeadLow rfl) (List.nil_suffix) rfl
    | illegal _ hc => exact absurd hc (by decide)

end Sys2Proof.Machine

/-! What has been fed, along a run (10_state.md R34 INV6, 40_frame_decoder.md R98): the bytes of the frame being read
are the last bytes fed, from the attempt's start on. -/

namespace Sys2Proof.Machine

/-! ### The bytes read, over one step -/

/-- No byte read is kept in the latch. -/
theorem Reading.withLatch {a : List Byte} {r : Regs} (h : Reading a r) (l : Byte) :
    Reading a { r with latch := l } := by
  cases h with
  | awaitHeadLow hst => exact .awaitHeadLow hst
  | awaitHeadHigh hst => exact .awaitHeadHigh hst
  | lengthLow hst hrc => exact .lengthLow hst hrc
  | lengthHigh hst hrc => exact .lengthHigh (r := { r with latch := l }) hst hrc
  | type hst hrc hlen => exact .type (r := { r with latch := l }) hst hrc hlen
  | command t hst hrc hlen => exact .command (r := { r with latch := l }) t hst hrc hlen
  | sequence t c hst hrc hlen => exact .sequence (r := { r with latch := l }) t c hst hrc hlen
  | data t c q hst hrc hlen => exact .data (r := { r with latch := l }) t c q hst hrc hlen
  | checksumLow t c q hst hrc hlen => exact .checksumLow (r := { r with latch := l }) t c q hst hrc hlen
  | checksumHigh t c q hst hrc hlen => exact .checksumHigh (r := { r with latch := l }) t c q hst hrc hlen
  | tail t c q hst hrc hlen => exact .tail (r := { r with latch := l }) t c q hst hrc hlen

section

variable {a : List Byte} {s t : State} (ha : Reading a s.regs)
include ha

/-- A byte is never written at an index outside the buffer. -/
theorem Reading.step_answers : ∃ t, step s = .next t := by
  refine Machine.step_answers fun hst => ?_
  cases ha with
  | data _ _ _ _ _ hlen => exact rc_lt_maxPayload_of_len_le hlen
  | _ => simp_all

theorem Reading.step_noFeed (h : step s = .next t) (hr : (nextInput s).reset = false) (hf : (nextInput s).feed = none) :
    Reading a t.regs ∧ t.out.frameDone = false := by
  rw [step_of_noReset hr, hf] at h
  cases h
  rw [afterTake_regs, afterTake_out]
  exact ⟨ha.withLatch _, rfl⟩

theorem Reading.step_feed {b : Byte} (h : step s = .next t) (hr : (nextInput s).reset = false)
    (hf : (nextInput s).feed = some b) : ReadingStep b a t.regs t.out := by
  rw [step_of_feed hr hf] at h
  have heffect := feedEffect_of_exec h
  rw [afterTake_regs] at heffect
  exact (ha.withLatch _).feed heffect

end

/-! ### What the bytes read are -/

/-- Two bytes of a frame and more are head-low and head-high at first. -/
theorem Reading.head {a : List Byte} {r : Regs} (h : Reading a r) (hlength : 2 ≤ a.length) :
    [Config.headLow, Config.headHigh] <+: a := by
  cases h with
  | awaitHeadLow | awaitHeadHigh => exact absurd hlength (by decide)
  | _ => exact ⟨_, rfl⟩

theorem Reading.eq_headLow {a : List Byte} {r : Regs} (h : Reading a r) (hst : r.st = St.awaitHeadHigh) :
    a = [Config.headLow] := by
  cases h with
  | awaitHeadHigh => rfl
  | _ => simp_all

/-- One byte is read just in `AwaitHeadHigh`. -/
theorem Reading.st_of_length_one {a : List Byte} {r : Regs} (h : Reading a r) (hlength : a.length = 1) :
    r.st = St.awaitHeadHigh := by
  cases h with
  | awaitHeadHigh h => exact h
  | _ => simp [headerBytes] at hlength

/-- From `Data` on the bytes read hold the header and then the DATA bytes stored. -/
theorem Reading.of_data_le {a : List Byte} {r : Regs} (h : Reading a r) (hst : St.data ≤ r.st) :
    ∃ (t c q : Byte) (rest : List Byte), a = headerBytes r.len t c q ++ (storedData r.payload r.rc ++ rest) := by
  cases h with
  | data t c q => exact ⟨t, c, q, [], by rw [List.append_nil]⟩
  | checksumLow t c q => exact ⟨t, c, q, [], by rw [List.append_nil]⟩
  | checksumHigh t c q => exact ⟨t, c, q, _, List.append_assoc ..⟩
  | tail t c q => exact ⟨t, c, q, _, List.append_assoc ..⟩
  | _ => simp_all

/-- INV5 in `Tail`. -/
theorem Reading.rc_of_tail {a : List Byte} {r : Regs} (h : Reading a r) (hst : r.st = St.tail) : r.rc = r.len := by
  cases h with
  | tail _ _ _ _ hrc => exact hrc
  | _ => simp_all

/-- R67: only a head-high byte in `AwaitHeadHigh` starts an attempt. -/
theorem decodeFeed_eq_feedAhhHead {c : StCode} {b : Byte} :
    decodeFeed c b = .feedAhhHead ↔ c = St.awaitHeadHigh ∧ b = Config.headHigh := by
  constructor
  · exact code_byte_of_decodeFeed
  · rintro ⟨rfl, rfl⟩
    rfl

/-! ### The bytes read, over a run -/

/-- The bytes of the frame being read are the last ones fed, and a frame attempt starts at the first of them. -/
def Tracks (f : Fed) (r : Regs) : Prop :=
  ∃ a : List Byte, Reading a r ∧ a <:+ f.bytes ∧ (2 ≤ a.length → f.start + a.length = f.bytes.length)

theorem Tracks.of_awaitHeadLow {f : Fed} {r : Regs} (h : r.st = St.awaitHeadLow) : Tracks f r :=
  ⟨[], .awaitHeadLow h, List.nil_suffix, fun h => absurd h (by decide)⟩

theorem attempt_eq_of_suffix {f : Fed} {a : List Byte} (hsuffix : a <:+ f.bytes)
    (hstart : f.start + a.length = f.bytes.length) : f.attempt = a := by
  obtain ⟨before, hbytes⟩ := hsuffix
  have hlength : before.length = f.start := by
    rw [← hbytes, List.length_append] at hstart
    exact (Nat.add_right_cancel hstart).symm
  rw [Fed.attempt, ← hbytes, List.drop_left' hlength]

theorem suffix_snoc {a l : List Byte} (h : a <:+ l) (b : Byte) : a ++ [b] <:+ l ++ [b] := by
  obtain ⟨before, rfl⟩ := h
  exact ⟨before, List.append_assoc .. |>.symm⟩

/-- Past the head a byte leaves the attempt's start. -/
theorem fedAfter_start_add {f : Fed} {s : State} {a : List Byte} {b : Byte} (hr : (nextInput s).reset = false)
    (hf : (nextInput s).feed = some b) (hhead : decodeFeed s.regs.st b ≠ .feedAhhHead)
    (hstart : f.start + a.length = f.bytes.length) :
    (fedAfter f s).start + (a ++ [b]).length = (fedAfter f s).bytes.length := by
  rw [fedAfter_feed hr hf, if_neg hhead, List.length_append, List.length_append, ← hstart, Nat.add_assoc]

/-- A head-high byte after a head-low byte puts the attempt's start at the head-low byte. -/
theorem fedAfter_start_of_head {f : Fed} {s : State} {b : Byte} (hr : (nextInput s).reset = false)
    (hf : (nextInput s).feed = some b) (hhead : decodeFeed s.regs.st b = .feedAhhHead) (hfed : 0 < f.bytes.length) :
    (fedAfter f s).start + 2 = (fedAfter f s).bytes.length := by
  rw [fedAfter_feed hr hf, if_pos hhead, List.length_append, List.length_singleton]
  show f.bytes.length - 1 + 2 = f.bytes.length + 1
  omega

theorem fedAfter_bytes {f : Fed} {s : State} {b : Byte} (hr : (nextInput s).reset = false)
    (hf : (nextInput s).feed = some b) : (fedAfter f s).bytes = f.bytes ++ [b] := by
  rw [fedAfter_feed hr hf]

/-- A step keeps track of what has been fed. -/
theorem Tracks.step {f : Fed} {s t : State} (h : Tracks f s.regs) (hstep : step s = .next t) :
    Tracks (fedAfter f s) t.regs := by
  obtain ⟨a, ha, hsuffix, hstart⟩ := h
  cases hr : (nextInput s).reset with
  | true =>
    rw [step_of_reset hr] at hstep
    cases hstep
    exact .of_awaitHeadLow rfl
  | false =>
    cases hf : (nextInput s).feed with
    | none =>
      rw [fedAfter_noFeed hr hf]
      exact ⟨a, (ha.step_noFeed hstep hr hf).1, hsuffix, hstart⟩
    | some b =>
      cases ha.step_feed hstep hr hf with
      | grows ha' =>
        refine ⟨a ++ [b], ha', fedAfter_bytes hr hf ▸ suffix_snoc hsuffix b, fun hlength => ?_⟩
        by_cases hhead : decodeFeed s.regs.st b = .feedAhhHead
        · obtain rfl := ha.eq_headLow (decodeFeed_eq_feedAhhHead.1 hhead).1
          exact fedAfter_start_of_head hr hf hhead hsuffix.length_le
        · refine fedAfter_start_add hr hf hhead (hstart ?_)
          by_contra hshort
          have hone : a.length = 1 := by rw [List.length_append, List.length_singleton] at hlength; omega
          have hst := ha.st_of_length_one hone
          obtain rfl := ha.eq_headLow hst
          have hb := (List.cons_prefix_cons.1 (List.cons_prefix_cons.1 (ha'.head hlength)).2).1
          exact hhead (decodeFeed_eq_feedAhhHead.2 ⟨hst, hb.symm⟩)
      | drops _ ha' hkept =>
        have hshort := hkept.length_le
        refine ⟨_, ha', fedAfter_bytes hr hf ▸ hkept.trans (List.suffix_append _ _), fun hlength => ?_⟩
        exact absurd (hlength.trans hshort) (by simp)
      | completes _ _ _ _ _ _ hst => exact .of_awaitHeadLow hst

theorem Tracks.runFed {k : Nat} {f f' : Fed} {s s' : State} (h : Tracks f s.regs)
    (hrun : runFed k f s = .next (f', s')) : Tracks f' s'.regs := by
  induction k generalizing f s with
  | zero => cases hrun; exact h
  | succ k ih =>
    obtain ⟨t, hstep, hrest⟩ := andThen_eq_next.1 hrun
    exact ih (h.step hstep) hrest

/-- INV6 of R34: from `Data` on the attempt begins with the head, and entry j below `rc` is the byte at place 7 + j. -/
theorem Tracks.attempt {f : Fed} {r : Regs} (h : Tracks f r) (hst : St.data ≤ r.st) :
    [Config.headLow, Config.headHigh] <+: f.attempt ∧
      ∀ j : Nat, j < r.rc.toNat → f.attempt[7 + j]? = some (Memory.cell r.payload j) := by
  obtain ⟨a, ha, hsuffix, hstart⟩ := h
  obtain ⟨t, c, q, rest, rfl⟩ := ha.of_data_le hst
  rw [attempt_eq_of_suffix hsuffix (hstart (by simp [headerBytes]))]
  refine ⟨⟨_, rfl⟩, fun j hj => ?_⟩
  have hplace : 7 + j - (headerBytes r.len t c q).length = j := Nat.add_sub_cancel_left 7 j
  rw [List.getElem?_append_right (Nat.le_add_right 7 j), hplace, List.getElem?_append_left (by rwa [length_storedData]),
    getElem?_storedData hj]

/-- Settles O37. -/
theorem payloadHoldsCurrentFramesData : Obligations.PayloadHoldsCurrentFramesData :=
  fun _ _ _ _ hst hrun hdata _ => ((Tracks.of_awaitHeadLow hst).runFed hrun).attempt hdata

/-- Settles O40: a publish is the one step in which the bytes read become a whole frame. -/
theorem noPublishWithoutFrame : Obligations.NoPublishWithoutFrame := by
  intro n s₀ s u f hst₀ hrun hstep hdone
  obtain ⟨a, ha, hsuffix, hstart⟩ := (Tracks.of_awaitHeadLow hst₀).runFed hrun
  obtain ⟨hreset, hnoReset⟩ := latchIsLastWriteCell s u hstep
  have hr : (nextInput s).reset = false := by
    by_contra hr
    rw [(hreset (by simpa using hr)).2] at hdone
    cases hdone
  obtain ⟨-, -, hpublish, -⟩ := hnoReset hr
  obtain ⟨hst, hf⟩ := hpublish.1 hdone
  refine ⟨hst, hf, ?_⟩
  cases ha.step_feed hstep hr hf with
  | grows _ h => rw [hdone] at h; cases h
  | drops _ _ _ h => rw [hdone] at h; cases h
  | completes t c q hframe hrc hlen _ _ hid =>
    have hlong : 2 ≤ a.length := by
      have := congrArg List.length hframe
      simp [frameBytes] at this
      omega
    have hhead : decodeFeed s.regs.st 0xFB#8 ≠ .feedAhhHead :=
      fun h => absurd (decodeFeed_eq_feedAhhHead.1 h).2 (by decide)
    have hsuffix' : a ++ [0xFB#8] <:+ (fedAfter f s).bytes := fedAfter_bytes hr hf ▸ suffix_snoc hsuffix _
    have hattempt := attempt_eq_of_suffix hsuffix' (fedAfter_start_add hr hf hhead (hstart hlong))
    rw [hframe] at hsuffix' hattempt
    exact ⟨t, c, q, _, _, by rwa [length_storedData, hrc], hsuffix', hattempt, hid⟩

/-! ### Two runs that differ in the payload -/

/-- No operation of a feed reads the payload but a good tail. -/
theorem exec_setPayload {i : Instr} {s t : State} (p : Memory) (h : exec i s = .next t)
    (hid : i = .feedTailOk → s.regs.len ≠ 0#4 → Memory.cell p 0 = Memory.cell s.regs.payload 0) :
    ∃ p' : Memory, exec i (setPayload p s) = .next (setPayload p' t) := by
  cases i with
  | feedLenhi b =>
    rcases Nat.lt_or_ge Config.maxPayload (declaredLength b s.regs.lenLo).toNat with hgt | hle
    · cases (execFeedLenhi_of_gt hgt).symm.trans h
      exact ⟨p, execFeedLenhi_of_gt (s := setPayload p s) hgt⟩
    · cases (execFeedLenhi_of_le hle).symm.trans h
      exact ⟨p, execFeedLenhi_of_le (s := setPayload p s) hle⟩
  | feedData b =>
    by_cases hlt : s.regs.rc < s.regs.len
    · have hrc := rc_lt_maxPayload_of_execFeedData hlt h
      cases (execFeedData_of_lt hlt hrc).symm.trans h
      exact ⟨_, execFeedData_of_lt (s := setPayload p s) hlt hrc⟩
    · have hge := BitVec.not_lt.1 hlt
      cases (execFeedData_of_ge b hge).symm.trans h
      exact ⟨p, execFeedData_of_ge b (s := setPayload p s) hge⟩
  | feedTailOk =>
    have hids := designatedId_eq s.regs
    cases (execFeedTailOk_of_designatedId hids).symm.trans h
    have hids' : designatedId (setPayload p s).regs =
        some (if s.regs.len = 0#4 then 0x00#8 else Memory.cell s.regs.payload 0) :=
      (designatedId_eq _).trans (congrArg some (ite_congr rfl (fun _ => rfl) (hid rfl)))
    exact ⟨p, execFeedTailOk_of_designatedId hids'⟩
  | _ => cases h; exact ⟨p, rfl⟩

end Sys2Proof.Machine

/-! A run of which only the payload's contents before it are different (70_reset_and_hazards.md R142). -/

namespace Sys2Proof.Machine

theorem afterTake_setPayload (p : Memory) (s : State) : afterTake (setPayload p s) = setPayload p (afterTake s) := by
  cases ht : (nextInput s).take with
  | true =>
    rw [afterTake, if_pos (show (nextInput (setPayload p s)).take = true from ht), afterTake, if_pos ht]
    rfl
  | false =>
    rw [afterTake_of_noTake ht, afterTake_of_noTake (s := setPayload p s) ht]
    rfl

/-- A step reads the payload only where it publishes the designated identifier. -/
theorem step_setPayload {s t : State} (p : Memory) (h : step s = .next t)
    (hid : s.regs.st = St.tail → s.regs.len ≠ 0#4 → Memory.cell p 0 = Memory.cell s.regs.payload 0) :
    ∃ p' : Memory, step (setPayload p s) = .next (setPayload p' t) := by
  cases hr : (nextInput s).reset with
  | true =>
    rw [step_of_reset hr] at h
    cases h
    exact ⟨p, step_of_reset (s := setPayload p s) hr⟩
  | false =>
    cases hf : (nextInput s).feed with
    | none =>
      rw [step_of_noReset hr, hf] at h
      cases h
      refine ⟨p, ?_⟩
      rw [step_of_noReset (s := setPayload p s) hr, show (nextInput (setPayload p s)).feed = none from hf,
        afterTake_setPayload]
      rfl
    | some b =>
      rw [step_of_feed hr hf] at h
      rw [step_of_feed (s := setPayload p s) hr hf, afterTake_setPayload]
      refine exec_setPayload p h fun htail => ?_
      rw [afterTake_regs]
      exact hid (code_byte_of_decodeFeed htail).1

/-- In `Tail` two payloads that track the same fed bytes have the first DATA byte in common. -/
theorem Tracks.cell_zero_eq {f : Fed} {r : Regs} {p : Memory} (h : Tracks f r) (hp : Tracks f { r with payload := p })
    (hst : r.st = St.tail) (hne : r.len ≠ 0#4) : Memory.cell p 0 = Memory.cell r.payload 0 := by
  obtain ⟨a, ha, -⟩ := id h
  have hpos : 0 < r.rc.toNat := by
    rw [ha.rc_of_tail hst]
    exact Nat.pos_of_ne_zero (mt (count_eq_zero_iff _).2 hne)
  have hdata : St.data ≤ r.st := by rw [hst]; decide
  exact Option.some_inj.1 (((hp.attempt hdata).2 0 hpos).symm.trans ((h.attempt hdata).2 0 hpos))

/-- R142 from any state and any two payloads that track the same fed bytes. -/
theorem runSteps_setPayload (k : Nat) {f : Fed} {s : State} {p : Memory} (h : Tracks f s.regs)
    (hp : Tracks f (setPayload p s).regs) :
    ∃ (outs : List Outputs) (t u : State), runSteps k s = .next (outs, t) ∧
      runSteps k (setPayload p s) = .next (outs, u) := by
  induction k generalizing f s p with
  | zero => exact ⟨[], _, _, rfl, rfl⟩
  | succ k ih =>
    obtain ⟨a, ha, -⟩ := id h
    obtain ⟨t, ht⟩ := ha.step_answers
    obtain ⟨p', hp'⟩ := step_setPayload p ht (h.cell_zero_eq hp)
    obtain ⟨outs, t', u', ht', hu'⟩ := ih (h.step ht) (hp.step hp')
    exact ⟨t.out :: outs, t', u', runSteps_cons ht ht', runSteps_cons (t := setPayload p' t) hp' hu'⟩

/-- Settles O38: in `AwaitHeadLow` every payload tracks that nothing has been fed. -/
theorem payloadBeforeFrameIsUnobservable : Obligations.PayloadBeforeFrameIsUnobservable :=
  fun k _ _ hst => runSteps_setPayload k (f := Fed.nothing) (.of_awaitHeadLow hst) (.of_awaitHeadLow hst)

end Sys2Proof.Machine

/-! Whole frames (40_frame_decoder.md R97, R99): the bytes of a frame, fed with no reset between, are read to the end
and published once. -/

namespace Sys2Proof.Machine

/-! ### The bytes of a frame -/

@[simp] theorem length_frameBytes (t c q : Byte) (data : List Byte) (k : Half) :
    (frameBytes t c q data k).length = data.length + 10 := by
  simp [frameBytes]

/-- A half-word is its two bytes (R43). -/
theorem half_bytes (h : Half) : h.extractLsb' 8 8 ++ h.extractLsb' 0 8 = h := by
  rw [BitVec.extractLsb'_append_extractLsb'_eq_extractLsb' (by rfl)]
  exact BitVec.extractLsb'_eq_self

section

variable {t c q t' c' q' : Byte} {data data' : List Byte} {k k' : Half}

/-- The length byte tells where a frame ends: no frame is a proper beginning of another. -/
theorem frameBytes_eq_of_isPrefix (hdata : data.length ≤ Config.maxPayload) (hdata' : data'.length ≤ Config.maxPayload)
    (h : frameBytes t c q data k <+: frameBytes t' c' q' data' k') :
    frameBytes t c q data k = frameBytes t' c' q' data' k' := by
  have hlength : BitVec.ofNat 8 data.length = BitVec.ofNat 8 data'.length := by
    simp only [frameBytes, List.cons_append, List.cons_prefix_cons] at h
    exact h.2.2.1
  refine h.eq_of_length ?_
  rw [length_frameBytes, length_frameBytes, length_eq_of_lengthByte hdata hdata' hlength]

theorem data_cksum_eq_of_frameBytes_eq (h : frameBytes t c q data k = frameBytes t' c' q' data' k') :
    data = data' ∧ k = k' := by
  have hlength : data.length = data'.length := by simpa using congrArg List.length h
  simp only [frameBytes, List.cons_append, List.nil_append, List.cons.injEq] at h
  obtain ⟨-, -, -, -, -, -, -, hrest⟩ := h
  obtain ⟨hdata, hcksum⟩ := List.append_inj hrest hlength
  simp only [List.cons.injEq] at hcksum
  obtain ⟨hlow, hhigh, -⟩ := hcksum
  exact ⟨hdata, by rw [← half_bytes k, hlow, hhigh, half_bytes]⟩

/-- A header and too few bytes after it are no frame. -/
theorem headerBytes_append_ne_frameBytes {len : Count} {l : List Byte} (hlen : len.toNat ≤ Config.maxPayload)
    (hdata : data.length ≤ Config.maxPayload) (hl : l.length < len.toNat + 3) :
    headerBytes len t c q ++ l ≠ frameBytes t' c' q' data k := by
  intro h
  have hlength : l.length + 7 = data.length + 10 := by simpa [headerBytes] using congrArg List.length h
  simp only [frameBytes, headerBytes, List.cons_append, List.cons.injEq] at h
  have := length_eq_of_lengthByte hlen hdata h.2.2.1
  omega

/-- What the decoder has read without publishing is no whole frame. -/
theorem Reading.ne_frameBytes {a : List Byte} {r : Regs} (h : Reading a r) (hdata : data.length ≤ Config.maxPayload) :
    a ≠ frameBytes t c q data k := by
  have hshort (h7 : a.length < 7) : a ≠ frameBytes t c q data k := by
    rintro rfl
    rw [length_frameBytes] at h7
    omega
  cases h with
  | data _ _ _ _ hrc hlen =>
    refine headerBytes_append_ne_frameBytes hlen hdata ?_
    rw [length_storedData]
    exact Nat.lt_add_right 3 (BitVec.lt_def.1 hrc)
  | checksumLow _ _ _ _ hrc hlen => exact headerBytes_append_ne_frameBytes hlen hdata (by simp [hrc])
  | checksumHigh _ _ _ _ hrc hlen =>
    rw [List.append_assoc]
    exact headerBytes_append_ne_frameBytes hlen hdata (by simp [hrc])
  | tail _ _ _ _ hrc hlen =>
    rw [List.append_assoc]
    exact headerBytes_append_ne_frameBytes hlen hdata (by simp [hrc])
  | _ => exact hshort (by simp)

end

/-- The bytes that inputs feed, one input at a time. -/
theorem bytesFed_cons (i : Input) (is : List Input) : bytesFed (i :: is) = i.feed.toList ++ bytesFed is := by
  cases hf : i.feed <;> simp [bytesFed, hf]

theorem bytesFed_feeds (bytes : List Byte) : bytesFed (feeds bytes) = bytes := by
  simp [bytesFed, feeds, List.filterMap_map, Function.comp_def, Input.ofByte]

theorem reset_of_mem_feeds {bytes : List Byte} {i : Input} (h : i ∈ feeds bytes) : i.reset = false := by
  obtain ⟨b, -, rfl⟩ := List.mem_map.1 h
  rfl

theorem beginsFrame_of_append {t c q : Byte} {data a l : List Byte} {k : Half} (hdata : data.length ≤ Config.maxPayload)
    (h : a ++ l = frameBytes t c q data k) : BeginsFrame a := ⟨t, c, q, data, k, hdata, l, h⟩

/-! ### Reading a frame to its end -/

/-- Of the frame to come the bytes a have been read; the byte before it may have been a 0xF4 too. -/
def ReadingFrame (a : List Byte) (r : Regs) : Prop := Reading a r ∨ a = [] ∧ r.st = St.awaitHeadHigh

section

variable {a : List Byte} {s t : State} (ha : ReadingFrame a s.regs)
include ha

theorem ReadingFrame.step_answers : ∃ t, step s = .next t := by
  rcases ha with ha | ⟨-, hst⟩
  · exact ha.step_answers
  · exact (Reading.awaitHeadHigh hst).step_answers

theorem ReadingFrame.step_noFeed (h : step s = .next t) (hr : (nextInput s).reset = false)
    (hf : (nextInput s).feed = none) : ReadingFrame a t.regs ∧ t.out.frameDone = false := by
  rcases ha with ha | ⟨rfl, hst⟩
  · exact (ha.step_noFeed h hr hf).imp_left .inl
  · obtain ⟨-, hdone⟩ := (Reading.awaitHeadHigh hst).step_noFeed h hr hf
    refine ⟨.inr ⟨rfl, ?_⟩, hdone⟩
    rw [(onlyFeedOrResetWritesSt s t h).1 hr hf]
    exact hst

/-- A head-low byte after another one is the head of the frame to come. -/
theorem ReadingFrame.step_feed {b : Byte} (h : step s = .next t) (hr : (nextInput s).reset = false)
    (hf : (nextInput s).feed = some b) (hbegins : BeginsFrame (a ++ [b])) : ReadingStep b a t.regs t.out := by
  rcases ha with ha | ⟨rfl, hst⟩
  · exact ha.step_feed h hr hf
  · have hb : b = Config.headLow := by by_contra hb; exact not_beginsFrame_of_scan hb hbegins
    rw [step_of_feed hr hf, hst, hb] at h
    cases h
    exact .grows (hb ▸ .awaitHeadHigh rfl) rfl

end

section

variable {t c q : Byte} {data : List Byte} {k : Half} (hdata : data.length ≤ Config.maxPayload)
include hdata

/-- Short of a frame's last byte, the inputs that feed its bytes are read and publish nothing. -/
theorem ReadingFrame.runSteps {pre : List Input} {a l : List Byte} {s : State} {rest : List Input}
    (ha : ReadingFrame a s.regs) (hreset : ∀ i ∈ pre, i.reset = false) (hinputs : s.inputs = pre ++ rest)
    (hframe : a ++ bytesFed pre ++ l = frameBytes t c q data k) (hl : l ≠ []) :
    ∃ (outs : List Outputs) (u : State), runSteps pre.length s = .next (outs, u) ∧ outs.length = pre.length ∧
      (∀ x ∈ outs, x.frameDone = false) ∧ u.inputs = rest ∧ ReadingFrame (a ++ bytesFed pre) u.regs := by
  induction pre generalizing a s with
  | nil => exact ⟨[], s, rfl, rfl, by simp, hinputs, by simpa [bytesFed] using ha⟩
  | cons i pre ih =>
    obtain ⟨hi, hreset⟩ := List.forall_mem_cons.1 hreset
    have hnext := nextInput_cons hinputs
    obtain ⟨u, hstep⟩ := ha.step_answers
    have huinputs : u.inputs = pre ++ rest := by rw [step_inputs hstep, hinputs]; rfl
    rw [bytesFed_cons, ← List.append_assoc] at hframe
    have hread : ReadingFrame (a ++ i.feed.toList) u.regs ∧ u.out.frameDone = false := by
      cases hf : i.feed with
      | none => simpa using ha.step_noFeed hstep (hnext ▸ hi) (hnext ▸ hf)
      | some b =>
        rw [hf, List.append_assoc] at hframe
        have hbegins := beginsFrame_of_append hdata hframe
        cases ha.step_feed hstep (hnext ▸ hi) (hnext ▸ hf) hbegins with
        | grows ha' hdone => exact ⟨.inl ha', hdone⟩
        | drops hnot => exact absurd hbegins hnot
        | completes t' c' q' hcomplete hrc hlen =>
          have hwhole : a ++ [b] = frameBytes t c q data k := by
            rw [hcomplete]
            refine frameBytes_eq_of_isPrefix (by rwa [length_storedData, hrc]) hdata ?_
            exact hcomplete ▸ ⟨_, hframe⟩
          have hnil : bytesFed pre ++ l = [] := List.append_right_eq_self.1 (hframe.trans hwhole.symm)
          exact absurd (List.append_eq_nil_iff.1 hnil).2 hl
    obtain ⟨outs, v, hrun, hlength, hnone, hvinputs, hv⟩ := ih hread.1 hreset huinputs hframe
    refine ⟨u.out :: outs, v, runSteps_cons hstep hrun, by simpa using hlength, ?_, hvinputs, ?_⟩
    · exact List.forall_mem_cons.2 ⟨hread.2, hnone⟩
    · rwa [bytesFed_cons, ← List.append_assoc]

end

/-- Settles O39: the bytes before the TAIL are read, and with it they are the frame. -/
theorem wellFormedFramePublishesOnce : Obligations.WellFormedFramePublishesOnce := by
  intro s t c q data k pre last rest hst hdata hreset hlast hfeed hframe hinputs
  have hstart : ReadingFrame [] s.regs := hst.imp .awaitHeadLow (⟨rfl, ·⟩)
  obtain ⟨outs, v, hrun, hlength, hnone, hvinputs, hv⟩ :=
    hstart.runSteps hdata hreset hinputs hframe (List.cons_ne_nil _ _)
  have hnext := nextInput_cons hvinputs
  obtain ⟨u, hstep⟩ := hv.step_answers
  have hlatch := ((latchIsLastWriteCell v u hstep).2 (hnext ▸ hlast)).1
  refine ⟨outs, u.out, u, ?_, hlength, hnone, ?_⟩
  · exact runSteps_add hrun (runSteps_cons hstep rfl)
  have hbegins := beginsFrame_of_append hdata ((List.append_nil _).trans hframe)
  cases hv.step_feed hstep (hnext ▸ hlast) (hnext ▸ hfeed) hbegins with
  | grows ha => exact absurd hframe (ha.ne_frameBytes hdata)
  | drops hnot => exact absurd hbegins hnot
  | completes t' c' q' hcomplete hrc hlen hst hdone hid =>
    obtain ⟨rfl, rfl⟩ := data_cksum_eq_of_frameBytes_eq (hframe.symm.trans hcomplete)
    rw [length_storedData]
    rw [hdone, if_pos rfl] at hlatch
    refine ⟨hdone, hid, hlatch.trans hid, hst, ?_, ?_, hrc, rfl, fun j hj => getElem?_storedData hj⟩
    · rw [step_inputs hstep, hvinputs]; rfl
    · rw [hrc]

/-! ### Frames back to back -/

theorem dropLast_frameBytes (t c q : Byte) (data : List Byte) (k : Half) :
    (frameBytes t c q data k).dropLast ++ [Config.tail] = frameBytes t c q data k := by
  rw [frameBytes, List.dropLast_append_of_ne_nil (List.cons_ne_nil _ _), List.append_assoc]
  rfl

/-- R97 for bytes fed with no gap: what the consumer sees of it. -/
theorem runSteps_frameBytes {s : State} {t c q : Byte} {data : List Byte} {k : Half} {rest : List Input}
    (hst : s.regs.st = St.awaitHeadLow) (hdata : data.length ≤ 8)
    (hinputs : s.inputs = feeds (frameBytes t c q data k) ++ rest) :
    ∃ (outs : List Outputs) (u : State), runSteps (data.length + 10) s = .next (outs, u) ∧
      (outs.filter (fun x => x.frameDone)).map (fun x => x.frameId) = [data.headD 0x00#8] ∧
      u.regs.latch = data.headD 0x00#8 ∧ u.regs.st = St.awaitHeadLow ∧ u.inputs = rest := by
  have hframe := dropLast_frameBytes t c q data k
  have hlength : (feeds (frameBytes t c q data k).dropLast).length = data.length + 9 := by simp [feeds]
  have hpre : s.inputs = feeds (frameBytes t c q data k).dropLast ++ Input.ofByte Config.tail :: rest := by
    rw [hinputs, ← hframe]
    simp [feeds]
  obtain ⟨outs, o, u, hrun, -, hnone, hdone, hid, hlatch, hst', hrest, -⟩ :=
    wellFormedFramePublishesOnce s t c q data k _ _ rest (.inl hst) hdata (fun _ => reset_of_mem_feeds) rfl rfl
      (by rw [bytesFed_feeds, hframe]) hpre
  rw [hlength] at hrun
  refine ⟨outs ++ [o], u, hrun, ?_, hlatch, hst', hrest⟩
  have : outs.filter (fun x => x.frameDone) = [] := List.filter_eq_nil_iff.2 fun x hx => by simp [hnone x hx]
  rw [List.filter_append, this, List.filter_cons_of_pos hdone]
  simp [hid]

/-- Settles O41: each frame leaves the decoder in `AwaitHeadLow`, and the second one overwrites the latch. -/
theorem backToBackFramesPublishInOrder : Obligations.BackToBackFramesPublishInOrder := by
  intro s t₁ c₁ q₁ t₂ c₂ q₂ d₁ d₂ k₁ k₂ rest hst hd₁ hd₂ hinputs
  rw [feeds, List.map_append, List.append_assoc] at hinputs
  obtain ⟨outs₁, u₁, hrun₁, hids₁, -, hst₁, hrest₁⟩ := runSteps_frameBytes hst hd₁ hinputs
  obtain ⟨outs₂, u₂, hrun₂, hids₂, hlatch₂, -, hrest₂⟩ := runSteps_frameBytes hst₁ hd₂ hrest₁
  have htake := gives_step_of_ofTake hrest₂
  rw [hlatch₂] at htake
  obtain ⟨u, hrun, hregs, hrest⟩ := Runs.one htake
  refine ⟨outs₁ ++ outs₂, ⟨false, 0x00#8, d₂.headD 0x00#8⟩, u, ?_, ?_, rfl, ?_, hrest⟩
  · have hcount : d₁.length + d₂.length + 21 = d₁.length + 10 + (d₂.length + 10) + 1 := by omega
    rw [hcount]
    exact runSteps_add (runSteps_add hrun₁ hrun₂) hrun
  · rw [List.filter_append, List.map_append, hids₁, hids₂]
    rfl
  · rw [hregs]

end Sys2Proof.Machine
